-- ==== Sys2Proof/Word.lean ====
section
/-! DEFINITION. Sys2Proof/Word.lean: the byte and the byte sequence of 00_scope.md R11. -/

namespace Sys2Proof

/-- An unsigned 8-bit value 0..255 (00_scope.md R11). -/
abbrev Byte := BitVec 8

/-- A finite sequence of bytes, index 0 first (00_scope.md R11). -/
abbrev Bytes := List Byte

end Sys2Proof
end

