-- ==== Sys2Proof/Config.lean ====
section
/-! DEFINITION. Sys2Proof/Config.lean: the protocol constants of 00_scope.md R8, the implementation parameters of R10 and the
free values for what a reset leaves unspecified (10_state.md R32, 93_implementation_defined.md I7). -/

namespace Sys2Proof.Config

/-! Protocol constants (00_scope.md R8). -/

/-- `HEAD`: the frame-start marker. -/
abbrev head : Byte := 0xAA
/-- `TAIL`: the frame-end byte. -/
abbrev tail : Byte := 0xAB
/-- `DEVID_LEN`: the length of a device id. -/
abbrev devidLen : Nat := 2
/-- `BUILDER_CMD_ID`: the command_id of every frame a builder builds (30_encoding.md R55). -/
abbrev builderCmdId : Byte := 0xB4
/-- `SUBCMD_SLEEP_WAKE`: byte 0 of the sleep/wake builder. -/
abbrev subcmdSleepWake : Byte := 0x06
/-- `SUBCMD_WORK_PERIOD`: byte 0 of the working-period builder. -/
abbrev subcmdWorkPeriod : Byte := 0x08
/-- `MINUTES_MAX`: the largest working period. -/
abbrev minutesMax : Int := 255

/-! Implementation parameters (00_scope.md R10), at the spec's defaults; notes/assumptions/11.md. -/

/-- `MAX_OPERAND_LEN`, the longest byte-list operand. -/
abbrev maxOperandLen : Nat := 255
/-- `ARG_W / 8`: the bytes of the WP_SET operand (`ARG_W` = 32). -/
abbrev argBytes : Nat := 4
/-- `HOST_REG_BASE`: OPEN (10_state.md R27). The block has no address map, so nothing of the model reads it. -/
opaque hostRegBase : Option Nat

/-! Free values: the elements 10_state.md R33 calls unspecified, after the n-th drawing (notes/assumptions/7.md). -/

/-- `RX.buf` after a reset. -/
opaque freeRxBuf : Nat → Vector Byte 19
/-- `RX.cnt` after a reset. -/
opaque freeRxCnt : Nat → Fin 20
/-- `TX.buf` after a reset. -/
opaque freeTxBuf : Nat → Vector Byte 19
/-- `TX.len` after a reset. -/
opaque freeTxLen : Nat → Fin 20
/-- `TX.idx` after a reset. -/
opaque freeTxIdx : Nat → Fin 20

end Sys2Proof.Config
end

