-- ==== Sys2Proof/Syntax.lean ====
section
/-! DEFINITION. Sys2Proof/Syntax.lean: the types of 00_scope.md R14 (Shape, Message, Reading, Result) and Instr, one constructor
for every row of spec/opcode_table.json: the fifteen host requests of 30_encoding.md R61 and the seven wire frame patterns of
R51 to R54. -/

namespace Sys2Proof

/-- The two frame shapes (00_scope.md R9). -/
inductive Shape
  | response
  | command
deriving DecidableEq, Repr

/-- The fields of a message operand or a message value (00_scope.md R14, 30_encoding.md R58). They are a Message of the spec
only when `Message.valid` holds (Machine/Operands.lean). -/
structure Message where
  shape : Shape
  commandId : Byte
  deviceId : Bytes
  payload : Bytes
deriving DecidableEq, Repr

/-- `Reading` (00_scope.md R14). -/
structure Reading where
  commandId : Byte
  deviceId : Bytes
  rawPm25 : BitVec 16
  rawPm10 : BitVec 16
deriving DecidableEq, Repr

/-- The field an InvalidLength names (00_scope.md R14). -/
inductive What
  | payload
  | deviceId
  | frame
deriving DecidableEq, Repr

/-- The three errors a request can end in (60_exceptions.md R108 to R110). -/
inductive ReqError
  | invalidLength (what : What) (actual expected : Nat)
  | invalidArgument (value : Int)
  | transportError
deriving DecidableEq, Repr

/-- The value of an Ok Result, by what 20_memory.md R41 says goes out to the host. -/
inductive Value
  | none
  | checksum (b : Byte)
  | bytes (bs : Bytes)
  | message (m : Message)
  | count (n : Nat)
  | reading (r : Reading)
deriving DecidableEq, Repr

/-- `Result` (00_scope.md R14). -/
inductive Result
  | ok (v : Value)
  | err (e : ReqError)
deriving DecidableEq, Repr

/-- A request of the host port (30_encoding.md R61) or a frame of the link port (R51 to R54). -/
inductive Instr
  /-- 40_frame_codec.md R75. -/
  | msgNew (shape : Shape) (commandId : Byte) (dev payload : Bytes)
  /-- 40_frame_codec.md R76. -/
  | checksum (payload dev : Bytes)
  /-- 40_frame_codec.md R77. -/
  | serialize (m : Message)
  /-- 42_frame_reader.md R99. -/
  | frameParse (shape : Shape) (frame : Bytes)
  /-- 42_frame_reader.md R91. -/
  | rxConfig (shape : Shape)
  /-- 42_frame_reader.md R92. -/
  | rxRead
  /-- 43_measurement_decoder.md R102. -/
  | measDecode (m : Message)
  /-- 44_link_write.md R104. -/
  | write (m : Message)
  /-- 41_command_builders.md R81. -/
  | swNew (shape : Shape)
  /-- 41_command_builders.md R82. -/
  | swSleep
  /-- 41_command_builders.md R83. -/
  | swWake
  /-- 41_command_builders.md R84. -/
  | swBuild (dev : Bytes)
  /-- 41_command_builders.md R85. -/
  | wpNew (shape : Shape)
  /-- 41_command_builders.md R86. -/
  | wpSet (minutes : Int)
  /-- 41_command_builders.md R87. -/
  | wpBuild (dev : Bytes)
  /-- 30_encoding.md R51: the nine bytes after the head, by their names there. -/
  | wireResponse (commandId pm25lo pm25hi pm10lo pm10hi dev0 dev1 cksum tail : Byte)
  /-- 30_encoding.md R52. -/
  | wireCommand (commandId : Byte) (payload : Bytes) (dev0 dev1 cksum tail : Byte)
  /-- 30_encoding.md R53, the query row. -/
  | wireSwQuery (dev0 dev1 cksum : Byte)
  /-- 30_encoding.md R53, the sleep row. -/
  | wireSwSleep (dev0 dev1 cksum : Byte)
  /-- 30_encoding.md R53, the wake row. -/
  | wireSwWake (dev0 dev1 cksum : Byte)
  /-- 30_encoding.md R54, the query row. -/
  | wireWpQuery (dev0 dev1 cksum : Byte)
  /-- 30_encoding.md R54, the set row. -/
  | wireWpSet (minutes dev0 dev1 cksum : Byte)
deriving DecidableEq, Repr

end Sys2Proof
end

