-- ==== Sys2Proof/Machine/Operands.lean ====
section
/-! DEFINITION. Sys2Proof/Machine/Operands.lean: what the operand fields of 30_encoding.md R58 stand for: the lengths of the two
shapes, slices and sums of byte lists, the Message invariants, the payload layouts of R53 and R54, little-endian numbers, and
overwriting the front of a frame buffer. -/

namespace Sys2Proof

/-- `data_length` (00_scope.md R9). -/
def Shape.dataLength : Shape → Nat
  | .response => 4
  | .command => 13

/-- `message_length` (00_scope.md R9). -/
def Shape.messageLength (s : Shape) : Nat := s.dataLength + 6

/-- The encoding of a shape, 0 Response and 1 Command (30_encoding.md R59). -/
def Shape.toByte : Shape → Byte
  | .response => 0x00
  | .command => 0x01

/-- The Message invariants (00_scope.md R14, 30_encoding.md R64). -/
def Message.valid (m : Message) : Bool :=
  m.deviceId.length == Config.devidLen && m.payload.length == m.shape.dataLength

namespace Machine

/-- `B[a..b)` (00_scope.md R11). -/
def slice (bs : Bytes) (a b : Nat) : Bytes := (bs.drop a).take (b - a)

/-- `ΣB`, an unbounded natural number (00_scope.md R11). -/
def sumBytes : Bytes → Nat
  | [] => 0
  | b :: bs => b.toNat + sumBytes bs

/-- `u16le(lo, hi) = lo + 256 * hi` (00_scope.md R11). -/
def u16le (lo hi : Byte) : BitVec 16 := BitVec.ofNat 16 (lo.toNat + 256 * hi.toNat)

/-- The `n` low bytes of a number, least significant first. -/
def bytesLE : Nat → Nat → Bytes
  | 0, _ => []
  | n + 1, w => BitVec.ofNat 8 w :: bytesLE n (w / 256)

/-- The number whose little-endian bytes these are. -/
def natLE : Bytes → Nat
  | [] => 0
  | b :: bs => b.toNat + 256 * natLE bs

/-- The int field of 30_encoding.md R58: `ARG_W / 8` bytes, little-endian two's complement. -/
def intBytes (n : Int) : Bytes := bytesLE Config.argBytes (BitVec.ofInt (8 * Config.argBytes) n).toNat

/-- `sext(int[ARG_W-1:0])` of the little-endian bytes (30_encoding.md R63). -/
def intOfBytes (bs : Bytes) : Int := (BitVec.ofNat (8 * Config.argBytes) (natLE bs)).toInt

/-- The integers an int field can hold. -/
def intFits (n : Int) : Bool :=
  decide (-(2 : Int) ^ (8 * Config.argBytes - 1) ≤ n) && decide (n < (2 : Int) ^ (8 * Config.argBytes - 1))

/-- The sleep/wake payload with the given bytes 1 and 2 (30_encoding.md R53). -/
def swPayload (flag mode : Byte) : Bytes := Config.subcmdSleepWake :: flag :: mode :: List.replicate 10 0x00

/-- The working-period payload with the given bytes 1 and 2 (30_encoding.md R54). -/
def wpPayload (flag minutes : Byte) : Bytes := Config.subcmdWorkPeriod :: flag :: minutes :: List.replicate 10 0x00

/-- A frame laid out as 30_encoding.md R50 says, with the checksum and tail bytes given. -/
def frameBytes (commandId : Byte) (payload dev : Bytes) (cksum tail : Byte) : Bytes :=
  [Config.head, commandId] ++ payload ++ dev ++ [cksum, tail]

/-- `TX.buf[0 .. len(f)) <- f` (44_link_write.md R104): the bytes behind the frame stay. -/
def overwriteFront (buf : Vector Byte 19) (f : Bytes) : Vector Byte 19 :=
  ⟨⟨(f ++ buf.toList.drop f.length).take 19⟩, by simp; omega⟩

end Machine
end Sys2Proof
end

