-- ==== Sys2Proof/WellFormed.lean ====
section
/-! DEFINITION. Sys2Proof/WellFormed.lean: which terms of Instr the encodings of 30_encoding.md can spell and the block takes. -/

namespace Sys2Proof

/-- A list operand the length byte may announce (30_encoding.md R58, R66). -/
def listFits (bs : Bytes) : Bool := decide (bs.length ≤ Config.maxOperandLen)

/-- A command frame that is one of the builders' frames of 30_encoding.md R53 and R54: its words belong to the WIRE_SW_ and
WIRE_WP_ rows (notes/assumptions/22.md). -/
def isBuilderFrame (commandId : Byte) (payload : Bytes) (tail : Byte) : Bool :=
  commandId == Config.builderCmdId && tail == Config.tail &&
    (payload == Machine.swPayload 0 0 || payload == Machine.swPayload 1 0 || payload == Machine.swPayload 1 1 ||
      payload == Machine.wpPayload 0 0 || payload == Machine.wpPayload 1 (payload.getD 2 0))

/-- Well-formedness: lists within `MAX_OPERAND_LEN`, message operands that are Messages (R64), a WP_SET operand of `ARG_W` bits
(R63), a thirteen-byte command payload (R52) that no more specific row spells. -/
def Instr.wf : Instr → Bool
  | .msgNew _ _ dev payload => listFits dev && listFits payload
  | .checksum payload dev => listFits payload && listFits dev
  | .serialize m => m.valid
  | .frameParse _ frame => listFits frame
  | .rxConfig _ => true
  | .rxRead => true
  | .measDecode m => m.valid
  | .write m => m.valid
  | .swNew _ => true
  | .swSleep => true
  | .swWake => true
  | .swBuild dev => listFits dev
  | .wpNew _ => true
  | .wpSet minutes => Machine.intFits minutes
  | .wpBuild dev => listFits dev
  | .wireResponse _ _ _ _ _ _ _ _ _ => true
  | .wireCommand commandId payload _ _ _ tail =>
      payload.length == Shape.command.dataLength && !isBuilderFrame commandId payload tail
  | .wireSwQuery _ _ _ => true
  | .wireSwSleep _ _ _ => true
  | .wireSwWake _ _ _ => true
  | .wireWpQuery _ _ _ => true
  | .wireWpSet _ _ _ _ => true

end Sys2Proof
end

