-- ==== Sys2Proof/Decode.lean ====
section
/-! DEFINITION. Sys2Proof/Decode.lean: decoding of host requests (30_encoding.md R58 to R66) and of wire frames (R50 to R54),
the encoders back, the byte form of a Result (R65), and the reading of an opcode-table word. -/

namespace Sys2Proof

/-- Why a byte string is no request (30_encoding.md R66) or no wire frame of the table (R51, R52). -/
inductive Reject
  /-- An `OP` value not in 30_encoding.md R61. -/
  | reservedOpcode
  /-- A shape byte other than 0x00 or 0x01. -/
  | badShape
  /-- A list length byte greater than `MAX_OPERAND_LEN`. -/
  | listTooLong
  /-- A request shorter than its format. -/
  | truncated
  /-- Bytes left over after the format's last field (notes/assumptions/10.md). -/
  | trailingBytes
  /-- A byte string that starts with 0xAA and is neither 10 nor 19 bytes long, or a frame that does not start with 0xAA. -/
  | notAFrame
deriving DecidableEq, Repr

namespace Decode

/-- One field read off the front of a request: its value and the bytes behind it. -/
abbrev Field (α : Type) := Except Reject (α × Bytes)

/-- A byte field. -/
def byteField : Bytes → Field Byte
  | [] => .error .truncated
  | b :: rest => .ok (b, rest)

/-- A shape field (30_encoding.md R58, R59, R66). -/
def shapeField : Bytes → Field Shape
  | [] => .error .truncated
  | b :: rest =>
    if b = 0x00 then .ok (.response, rest)
    else if b = 0x01 then .ok (.command, rest)
    else .error .badShape

/-- `n` bytes in order. -/
def bytesField (n : Nat) (bs : Bytes) : Field Bytes :=
  if bs.length < n then .error .truncated else .ok (bs.take n, bs.drop n)

/-- A list field: a length byte of at most `maxLen`, then that many bytes (30_encoding.md R58, R62, R66). -/
def listFieldUpTo (maxLen : Nat) : Bytes → Field Bytes
  | [] => .error .truncated
  | n :: rest => if maxLen < n.toNat then .error .listTooLong else bytesField n.toNat rest

/-- A list field at the configured `MAX_OPERAND_LEN`. -/
def listField (bs : Bytes) : Field Bytes := listFieldUpTo Config.maxOperandLen bs

/-- An int field (30_encoding.md R58, R63). -/
def intField (bs : Bytes) : Field Int :=
  (bytesField Config.argBytes bs).bind fun (b, rest) => .ok (Machine.intOfBytes b, rest)

/-- The four fields of a message operand; formats HM and HN (30_encoding.md R58, R60). -/
def messageField (bs : Bytes) : Field Message :=
  (shapeField bs).bind fun (shape, bs) =>
  (byteField bs).bind fun (commandId, bs) =>
  (listField bs).bind fun (dev, bs) =>
  (listField bs).bind fun (payload, bs) =>
  .ok (⟨shape, commandId, dev, payload⟩, bs)

/-- The operand fields behind an opcode byte, by 30_encoding.md R60 and R61. -/
def operands (op : Byte) (bs : Bytes) : Field Instr :=
  if op = 0x01 then (messageField bs).bind fun (m, bs) => .ok (.msgNew m.shape m.commandId m.deviceId m.payload, bs)
  else if op = 0x02 then
    (listField bs).bind fun (payload, bs) => (listField bs).bind fun (dev, bs) => .ok (.checksum payload dev, bs)
  else if op = 0x03 then (messageField bs).bind fun (m, bs) => .ok (.serialize m, bs)
  else if op = 0x04 then
    (shapeField bs).bind fun (shape, bs) => (listField bs).bind fun (frame, bs) => .ok (.frameParse shape frame, bs)
  else if op = 0x05 then (shapeField bs).bind fun (shape, bs) => .ok (.rxConfig shape, bs)
  else if op = 0x06 then .ok (.rxRead, bs)
  else if op = 0x07 then (messageField bs).bind fun (m, bs) => .ok (.measDecode m, bs)
  else if op = 0x08 then (messageField bs).bind fun (m, bs) => .ok (.write m, bs)
  else if op = 0x10 then (shapeField bs).bind fun (shape, bs) => .ok (.swNew shape, bs)
  else if op = 0x11 then .ok (.swSleep, bs)
  else if op = 0x12 then .ok (.swWake, bs)
  else if op = 0x13 then (listField bs).bind fun (dev, bs) => .ok (.swBuild dev, bs)
  else if op = 0x18 then (shapeField bs).bind fun (shape, bs) => .ok (.wpNew shape, bs)
  else if op = 0x19 then (intField bs).bind fun (minutes, bs) => .ok (.wpSet minutes, bs)
  else if op = 0x1A then (listField bs).bind fun (dev, bs) => .ok (.wpBuild dev, bs)
  else .error .reservedOpcode

/-- The request at the front of a byte string, and the bytes behind it (30_encoding.md R58, R61). -/
def requestFront : Bytes → Field Instr
  | [] => .error .truncated
  | op :: bs => operands op bs

end Decode

/-- The request a byte string on the host port spells (30_encoding.md R58, R66); the whole string is the request. -/
def decodeRequest (bs : Bytes) : Except Reject Instr :=
  (Decode.requestFront bs).bind fun (i, rest) => if rest = [] then .ok i else .error .trailingBytes

/-- The row of a 19-byte frame with these fields: the builders' rows of 30_encoding.md R53 and R54 first, then WIRE_COMMAND
(notes/assumptions/22.md). -/
def commandRow (commandId : Byte) (payload : Bytes) (dev0 dev1 cksum tail : Byte) : Instr :=
  if commandId = Config.builderCmdId ∧ tail = Config.tail then
    if payload = Machine.swPayload 0 0 then .wireSwQuery dev0 dev1 cksum
    else if payload = Machine.swPayload 1 0 then .wireSwSleep dev0 dev1 cksum
    else if payload = Machine.swPayload 1 1 then .wireSwWake dev0 dev1 cksum
    else if payload = Machine.wpPayload 0 0 then .wireWpQuery dev0 dev1 cksum
    else if payload = Machine.wpPayload 1 (payload.getD 2 0) then .wireWpSet (payload.getD 2 0) dev0 dev1 cksum
    else .wireCommand commandId payload dev0 dev1 cksum tail
  else .wireCommand commandId payload dev0 dev1 cksum tail

/-- The wire frame a byte string spells (30_encoding.md R50 to R54): the head must be 0xAA and the length that of a shape; no
other byte is illegal (R57). -/
def decodeFrame (bs : Bytes) : Except Reject Instr :=
  if bs.head? = some Config.head then
    if bs.length = Shape.response.messageLength then
      .ok (.wireResponse (bs.getD 1 0) (bs.getD 2 0) (bs.getD 3 0) (bs.getD 4 0) (bs.getD 5 0) (bs.getD 6 0) (bs.getD 7 0)
        (bs.getD 8 0) (bs.getD 9 0))
    else if bs.length = Shape.command.messageLength then
      .ok (commandRow (bs.getD 1 0) (Machine.slice bs 2 15) (bs.getD 15 0) (bs.getD 16 0) (bs.getD 17 0) (bs.getD 18 0))
    else .error .notAFrame
  else .error .notAFrame

/-- Any byte string of the two opcode maps: 0xAA is no opcode (30_encoding.md R61), so the first byte tells a frame from a
request. -/
def decode (bs : Bytes) : Except Reject Instr :=
  if bs.head? = some Config.head then decodeFrame bs else decodeRequest bs

/-! The encoders. -/

namespace Encode

/-- A list field (30_encoding.md R58). -/
def list (bs : Bytes) : Bytes := BitVec.ofNat 8 bs.length :: bs

/-- A message field (30_encoding.md R58). -/
def message (m : Message) : Bytes := [m.shape.toByte, m.commandId] ++ list m.deviceId ++ list m.payload

end Encode

/-- The bytes of an instruction: 30_encoding.md R60 and R61 for a request, R50 to R54 for a wire frame. -/
def encode : Instr → Bytes
  | .msgNew shape commandId dev payload => 0x01 :: Encode.message ⟨shape, commandId, dev, payload⟩
  | .checksum payload dev => 0x02 :: (Encode.list payload ++ Encode.list dev)
  | .serialize m => 0x03 :: Encode.message m
  | .frameParse shape frame => 0x04 :: shape.toByte :: Encode.list frame
  | .rxConfig shape => [0x05, shape.toByte]
  | .rxRead => [0x06]
  | .measDecode m => 0x07 :: Encode.message m
  | .write m => 0x08 :: Encode.message m
  | .swNew shape => [0x10, shape.toByte]
  | .swSleep => [0x11]
  | .swWake => [0x12]
  | .swBuild dev => 0x13 :: Encode.list dev
  | .wpNew shape => [0x18, shape.toByte]
  | .wpSet minutes => 0x19 :: Machine.intBytes minutes
  | .wpBuild dev => 0x1A :: Encode.list dev
  | .wireResponse commandId pm25lo pm25hi pm10lo pm10hi dev0 dev1 cksum tail =>
      Machine.frameBytes commandId [pm25lo, pm25hi, pm10lo, pm10hi] [dev0, dev1] cksum tail
  | .wireCommand commandId payload dev0 dev1 cksum tail => Machine.frameBytes commandId payload [dev0, dev1] cksum tail
  | .wireSwQuery dev0 dev1 cksum =>
      Machine.frameBytes Config.builderCmdId (Machine.swPayload 0 0) [dev0, dev1] cksum Config.tail
  | .wireSwSleep dev0 dev1 cksum =>
      Machine.frameBytes Config.builderCmdId (Machine.swPayload 1 0) [dev0, dev1] cksum Config.tail
  | .wireSwWake dev0 dev1 cksum =>
      Machine.frameBytes Config.builderCmdId (Machine.swPayload 1 1) [dev0, dev1] cksum Config.tail
  | .wireWpQuery dev0 dev1 cksum =>
      Machine.frameBytes Config.builderCmdId (Machine.wpPayload 0 0) [dev0, dev1] cksum Config.tail
  | .wireWpSet minutes dev0 dev1 cksum =>
      Machine.frameBytes Config.builderCmdId (Machine.wpPayload 1 minutes) [dev0, dev1] cksum Config.tail

/-- Whether an instruction is a frame of the link port and not a request of the host port. -/
def Instr.isWire : Instr → Bool
  | .msgNew _ _ _ _ => false
  | .checksum _ _ => false
  | .serialize _ => false
  | .frameParse _ _ => false
  | .rxConfig _ => false
  | .rxRead => false
  | .measDecode _ => false
  | .write _ => false
  | .swNew _ => false
  | .swSleep => false
  | .swWake => false
  | .swBuild _ => false
  | .wpNew _ => false
  | .wpSet _ => false
  | .wpBuild _ => false
  | .wireResponse _ _ _ _ _ _ _ _ _ => true
  | .wireCommand _ _ _ _ _ _ => true
  | .wireSwQuery _ _ _ => true
  | .wireSwSleep _ _ _ => true
  | .wireSwWake _ _ _ => true
  | .wireWpQuery _ _ _ => true
  | .wireWpSet _ _ _ _ => true

/-! The byte form of a Result (30_encoding.md R65). -/

/-- The error code of 60_exceptions.md R111. -/
def ReqError.code : ReqError → BitVec 3
  | .invalidLength _ _ _ => 1
  | .invalidArgument _ => 2
  | .transportError => 3

/-- The value `STATUS.ERR` takes for a Result: 0 for Ok (60_exceptions.md R111). -/
def Result.code : Result → BitVec 3
  | .ok _ => 0
  | .err e => e.code

/-- The `what` byte (30_encoding.md R65). -/
def What.toByte : What → Byte
  | .payload => 0
  | .deviceId => 1
  | .frame => 2

/-- What follows the code byte of an error Result. -/
def ReqError.detail : ReqError → Bytes
  | .invalidLength what actual expected => [what.toByte, BitVec.ofNat 8 actual, BitVec.ofNat 8 expected]
  | .invalidArgument value => Machine.intBytes value
  | .transportError => []

/-- What follows the code byte of an Ok Result. -/
def Value.encode : Value → Bytes
  | .none => []
  | .checksum b => [b]
  | .bytes bs => Encode.list bs
  | .message m => Encode.message m
  | .count n => [BitVec.ofNat 8 n]
  | .reading r =>
      [r.commandId] ++ Encode.list r.deviceId ++ Machine.bytesLE 2 r.rawPm25.toNat ++ Machine.bytesLE 2 r.rawPm10.toNat

/-- The bytes of a Result (30_encoding.md R65). -/
def Result.encode (r : Result) : Bytes :=
  r.code.setWidth 8 :: match r with
    | .ok v => v.encode
    | .err e => e.detail

/-! Words of spec/opcode_table.json (notes/assumptions/4.md). -/

/-- The most bytes a request can have: format HM or HN with two lists of `MAX_OPERAND_LEN`. -/
def longestRequest : Nat := 5 + 2 * Config.maxOperandLen

/-- A request laid out in full: zero bytes are added while it is shorter than its format, and bytes behind its last field are
cut off. -/
def wholeRequest : Nat → Bytes → Bytes
  | 0, bs => bs
  | n + 1, bs =>
    match Decode.requestFront bs with
    | .ok (_, rest) => bs.take (bs.length - rest.length)
    | .error .truncated => wholeRequest n (bs ++ [0x00])
    | .error _ => bs

/-- The bytes of a table word: a frame when the row is as wide as one and its head byte stands at the table's place for byte 0
(leftmost) or at the place the general numbering gives it (bits 7..0); otherwise a request, zeros above `nbits`. -/
def tableBytes (nbits w : Nat) : Bytes :=
  let low := Machine.bytesLE (nbits / 8) w
  if nbits = 8 * Shape.response.messageLength ∨ nbits = 8 * Shape.command.messageLength then
    if low.reverse.head? = some Config.head then low.reverse
    else if low.head? = some Config.head then low
    else wholeRequest longestRequest low
  else wholeRequest longestRequest low

/-- The instruction the decoder reads from an opcode-table word. -/
def decodeTableWord (nbits w : Nat) : Option Instr :=
  let bs := tableBytes nbits w
  (if bs.head? = some Config.head then decodeFrame bs else decodeRequest bs).toOption

end Sys2Proof
end

