-- ==== Sys2Proof/Machine/State.lean ====
section
/-! DEFINITION. Sys2Proof/Machine/State.lean: the block's state (10_state.md R18 to R33), the two ports and the environment at
them (00_scope.md R6, 70_reset_and_hazards.md R137), the reasons a step can stop, and the state after reset. -/

namespace Sys2Proof.Machine

/-- A builder: a 13-byte buffer and a target shape (10_state.md R20). -/
structure Builder where
  buf : Vector Byte 13
  shape : Shape
deriving DecidableEq, Repr

/-- A freshly constructed builder of the given sub-command (41_command_builders.md R81, R85). -/
def Builder.fresh (subcmd : Byte) (shape : Shape) : Builder := ⟨(Vector.replicate 13 0x00).set 0 subcmd, shape⟩

/-- `RX.state` (10_state.md R28). -/
inductive RxState
  | idle
  | hunt
  | collect
deriving DecidableEq, Repr

/-- The RX engine (10_state.md R28). -/
structure RxEngine where
  state : RxState
  cnt : Fin 20
  buf : Vector Byte 19
deriving DecidableEq, Repr

/-- `TX.state` (10_state.md R29). -/
inductive TxState
  | idle
  | send
deriving DecidableEq, Repr

/-- The TX engine (10_state.md R29). -/
structure TxEngine where
  state : TxState
  buf : Vector Byte 19
  len : Fin 20
  idx : Fin 20
deriving DecidableEq, Repr

/-- The two registers a Host can read (70_reset_and_hazards.md R136). -/
inductive HostReg
  | cfg
  | status
deriving DecidableEq, Repr

/-- One move of the outside world (00_scope.md R6, 70_reset_and_hazards.md R136, 60_exceptions.md R113; notes/assumptions/1.md). -/
inductive Event
  /-- The Host issues the request these bytes spell (30_encoding.md R58). -/
  | request (bytes : Bytes)
  /-- The Host reads `CFG`. -/
  | readCfg
  /-- The Host reads `STATUS`. -/
  | readStatus
  /-- The Host asserts reset; `moved` says whether the link byte in transfer was still consumed or sent
  (70_reset_and_hazards.md R125). -/
  | assertReset (moved : Bool)
  /-- The Host releases reset. -/
  | releaseReset
  /-- A byte from the peer comes to be held by the Link. -/
  | arrive (b : Byte)
  /-- The Link offers the oldest byte it holds. -/
  | offer
  /-- The Link accepts the byte the block offers. -/
  | accept
  /-- The Link signals a transport error. -/
  | linkError
  /-- A run of bytes arrives and the Link offers all it holds, byte by byte (notes/assumptions/5.md). -/
  | frame (bytes : Bytes)
deriving DecidableEq, Repr

/-- The machine: the elements of 10_state.md R18, then the reset input, what the Host and the Link have got from the block and
hold for it, the coming moves of the outside world, and the number of free values drawn. -/
structure State where
  /-- `CFG.RX_SHAPE`. -/
  rxShape : Shape
  /-- `SWB`. -/
  swb : Builder
  /-- `WPB`. -/
  wpb : Builder
  /-- `RX.state`, `RX.cnt`, `RX.buf`. -/
  rx : RxEngine
  /-- `TX.state`, `TX.buf`, `TX.len`, `TX.idx`. -/
  tx : TxEngine
  /-- `BUSY`. -/
  busy : Bool
  /-- `STATUS.ERR`. -/
  err : BitVec 3
  /-- The reset input: true while the Host asserts it (70_reset_and_hazards.md R124). -/
  resetInput : Bool
  /-- The Results returned to the Host, first to last. -/
  results : List Result
  /-- The register reads of the Host, first to last, with the value each gave. -/
  reads : List (HostReg × Byte)
  /-- The bytes the Link holds for the block, oldest first. -/
  held : Bytes
  /-- The bytes the Link has accepted from the block, in order. -/
  sent : Bytes
  /-- The coming moves of the outside world, next first. -/
  agenda : List Event
  /-- How many times the free values of Config have been drawn (the model's own; notes/assumptions/7.md). -/
  draws : Nat
deriving DecidableEq, Repr

/-- Why the machine stops. -/
inductive Fault
  /-- Raised by the COLLECT step when `RX.cnt` is no index of the 19-byte `RX.buf`. Safe: no reachable state has it, since
  `RX.cnt` stays below the frame length (10_state.md R21; notes/assumptions/13.md). -/
  | rxIndexOutOfRange
  /-- Raised by the TX step when `TX.idx` is no index of the 19-byte `TX.buf`. Safe: no reachable state has it
  (10_state.md R21; notes/assumptions/13.md). -/
  | txIndexOutOfRange
deriving DecidableEq, Repr

/-- Why a request has no meaning (30_encoding.md R66); a refused run proves nothing past that point
(70_reset_and_hazards.md R136). -/
inductive Refusal
  /-- Raised by exec's arm of an instruction that has no meaning yet. Safe. -/
  | notModelled (mnemonic : String)
  /-- Raised by step when the bytes on the host port are no request (30_encoding.md R66). Safe. -/
  | reservedEncoding (why : Reject)
  /-- Raised by every host request while `BUSY` = 1 (30_encoding.md R66, 70_reset_and_hazards.md R128). Safe. -/
  | busy
  /-- Raised by SERIALIZE, MEAS_DECODE and WRITE when the operand is not a Message (30_encoding.md R64). Safe. -/
  | notAMessage
  /-- Raised by every host request while reset is asserted: the block takes no request (70_reset_and_hazards.md R124;
  notes/assumptions/8.md). Safe. -/
  | inReset
deriving DecidableEq, Repr

/-- The state after reset (10_state.md R33), reset released, nothing issued, held or sent yet. `RX.cnt`, `RX.buf`, `TX.buf`,
`TX.len` and `TX.idx` are unspecified there; their values here are a DESIGN CHOICE (notes/assumptions/6.md). -/
def State.reset : State where
  rxShape := .response
  swb := Builder.fresh Config.subcmdSleepWake .command
  wpb := Builder.fresh Config.subcmdWorkPeriod .command
  rx := ⟨.idle, 0, Vector.replicate 19 0x00⟩
  tx := ⟨.idle, Vector.replicate 19 0x00, 0, 0⟩
  busy := false
  err := 0
  resetInput := false
  results := []
  reads := []
  held := []
  sent := []
  agenda := []
  draws := 0

end Sys2Proof.Machine
end

