-- ==== Sys2Proof/Machine/Flags.lean ====
section
/-! DEFINITION. Sys2Proof/Machine/Flags.lean: the two registers as the Host reads them, `CFG` (10_state.md R25) and `STATUS`
(R26). -/

namespace Sys2Proof.Machine

/-- `CFG`: `RX_SHAPE` in bit 0, bits 7:1 read as 0 (10_state.md R25, 30_encoding.md R67). -/
def State.cfg (s : State) : Byte := s.rxShape.toByte

/-- The `RX_STATE` field: 0 IDLE, 1 HUNT, 2 COLLECT (10_state.md R26). -/
def RxState.code : RxState → BitVec 2
  | .idle => 0
  | .hunt => 1
  | .collect => 2

/-- The `TX_BUSY` field: 1 iff `TX.state` = SEND (10_state.md R26). -/
def TxState.code : TxState → BitVec 1
  | .idle => 0
  | .send => 1

/-- `STATUS`: from bit 7 down, the reserved bit (0), `ERR`, `BUSY`, `TX_BUSY`, `RX_STATE` (10_state.md R26). -/
def State.status (s : State) : Byte :=
  0#1 ++ s.err ++ BitVec.ofBool s.busy ++ s.tx.state.code ++ s.rx.state.code

end Sys2Proof.Machine
end

