-- ==== Sys2Proof/Machine/Ops.lean ====
section
/-! DEFINITION. Sys2Proof/Machine/Ops.lean: the operations the requests share: taking a request, ending one with a Result (an
error included), the codec's functions (checksum, checked construction, serialization, parse, build), the link steps, and
reset. -/

namespace Sys2Proof.Machine

/-- The outcome of one step of this machine. -/
abbrev Out := Host.Outcome State Fault Refusal

/-! ### Taking and ending a request -/

/-- Take a host request: refused while reset is asserted (70_reset_and_hazards.md R124) and while `BUSY` = 1 (10_state.md R22,
30_encoding.md R66); otherwise the request's own effect. -/
def take (s : State) (effect : Out) : Out :=
  if s.resetInput then .refused .inReset else if s.busy then .refused .busy else effect

/-- A format-HM operand must be a Message (30_encoding.md R64). -/
def needMessage (m : Message) (effect : Out) : Out := if m.valid then effect else .refused .notAMessage

/-- End a request with a Result: `STATUS.ERR` takes its code (10_state.md R23), the Host receives it. `raise` and `return` of
00_scope.md R13, and all that an error does by 60_exceptions.md R114 for a request that used no engine. -/
def finish (r : Result) (s : State) : State := { s with err := r.code, results := s.results ++ [r] }

/-- End an RX_READ: the engine goes IDLE and `BUSY` is cleared (42_frame_reader.md R95, R96). -/
def finishRx (r : Result) (s : State) : State := finish r { s with rx := { s.rx with state := .idle }, busy := false }

/-- End a WRITE (44_link_write.md R105, R106). -/
def finishTx (r : Result) (s : State) : State := finish r { s with tx := { s.tx with state := .idle }, busy := false }

/-- The Result of a computation that may raise. -/
def resultOf {α : Type} (value : α → Value) : Except ReqError α → Result
  | .ok a => .ok (value a)
  | .error e => .err e

/-! ### Codec functions -/

/-- `checksum(p, d)` (40_frame_codec.md R70). -/
def checksum (p d : Bytes) : Byte := BitVec.ofNat 8 (sumBytes p + sumBytes d)

/-- `new_message(s, c, d, p)` (40_frame_codec.md R72): the payload is checked before the device id. -/
def newMessage (s : Shape) (c : Byte) (d p : Bytes) : Except ReqError Message :=
  if p.length ≠ s.dataLength then .error (.invalidLength .payload p.length s.dataLength)
  else if d.length ≠ Config.devidLen then .error (.invalidLength .deviceId d.length Config.devidLen)
  else .ok ⟨s, c, d, p⟩

/-- `serialize(m)` (40_frame_codec.md R73). -/
def serialize (m : Message) : Bytes := frameBytes m.commandId m.payload m.deviceId (checksum m.payload m.deviceId) Config.tail

/-- `parse(s, buf)` (42_frame_reader.md R88). -/
def parse (s : Shape) (buf : Bytes) : Except ReqError Message :=
  newMessage s (buf.getD 1 0) (slice buf (s.messageLength - 4) (s.messageLength - 2)) (slice buf 2 (2 + s.dataLength))

/-- `build(B, d)` (41_command_builders.md R79). -/
def build (b : Builder) (d : Bytes) : Except ReqError Message := newMessage b.shape Config.builderCmdId d b.buf.toList

/-- A set request's write of builder bytes 1 and 2 (41_command_builders.md R82, R83, R86). -/
def Builder.setMode (b : Builder) (flag value : Byte) : Builder := { b with buf := (b.buf.set 1 flag).set 2 value }

/-! ### Link steps -/

/-- One HUNT step on the byte consumed (42_frame_reader.md R93). -/
def huntStep (b : Byte) (s : State) : State :=
  if b = Config.head then
    { s with rx := { s.rx with buf := s.rx.buf.set 0 Config.head, cnt := 1, state := .collect } }
  else s

/-- The end of an RX_READ whose frame is complete (42_frame_reader.md R95). -/
def completeRx (s : State) : State :=
  finishRx (resultOf .message (parse s.rxShape (s.rx.buf.toList.take s.rxShape.messageLength))) s

/-- One COLLECT step on the byte consumed (42_frame_reader.md R94, R95). -/
def collectStep (b : Byte) (s : State) : Out :=
  if h : s.rx.cnt.val < 19 then
    let s1 := { s with rx := { s.rx with buf := s.rx.buf.set s.rx.cnt.val b, cnt := s.rx.cnt + 1 } }
    if s1.rx.cnt.val = s1.rxShape.messageLength then .next (completeRx s1) else .next s1
  else .fault .rxIndexOutOfRange

/-- The Link offers the oldest byte it holds: the block consumes it only in HUNT or COLLECT (44_link_write.md R103) and
performs no link step while reset is asserted (70_reset_and_hazards.md R124). -/
def linkOffer (s : State) : Out :=
  if s.resetInput then .next s
  else
    match s.held, s.rx.state with
    | [], _ => .next s
    | _ :: _, .idle => .next s
    | b :: rest, .hunt => .next (huntStep b { s with held := rest })
    | b :: rest, .collect => collectStep b { s with held := rest }

/-- The Link accepts the byte the block offers (44_link_write.md R105); nothing is offered outside SEND. -/
def linkAccept (s : State) : Out :=
  if s.resetInput then .next s
  else
    match s.tx.state with
    | .idle => .next s
    | .send =>
      if h : s.tx.idx.val < 19 then
        let s1 := { s with sent := s.sent ++ [s.tx.buf[s.tx.idx.val]], tx := { s.tx with idx := s.tx.idx + 1 } }
        if s1.tx.idx = s1.tx.len then .next (finishTx (.ok (.count s1.tx.len.val)) s1) else .next s1
      else .fault .txIndexOutOfRange

/-- The Link signals a transport error: it ends the RX_READ (42_frame_reader.md R96) or WRITE (44_link_write.md R106) in
flight, and does nothing when none is (notes/assumptions/12.md). -/
def linkError (s : State) : State :=
  if s.resetInput then s
  else if s.rx.state ≠ .idle then finishRx (.err .transportError) s
  else if s.tx.state = .send then finishTx (.err .transportError) s
  else s

/-- A byte from the peer comes to be held by the Link, behind what it holds (44_link_write.md R103). -/
def linkArrive (b : Byte) (s : State) : State := { s with held := s.held ++ [b] }

/-- `n` offers in a row. -/
def linkOffers : Nat → State → Out
  | 0, s => .next s
  | n + 1, s =>
    match linkOffer s with
    | .next s' => linkOffers n s'
    | .fault r => .fault r
    | .refused r => .refused r

/-- A run of bytes arrives and the Link offers all it then holds, one byte at a time, oldest first (notes/assumptions/5.md). -/
def linkBurst (bs : Bytes) (s : State) : Out :=
  linkOffers (s.held.length + bs.length) { s with held := s.held ++ bs }

/-! ### Reset and register reads -/

/-- Every element of the block at its reset value (10_state.md R33); the elements R33 calls unspecified take free values
(notes/assumptions/7.md). Nothing outside the block changes. -/
def blockReset (s : State) : State :=
  { s with
    rxShape := .response
    swb := Builder.fresh Config.subcmdSleepWake .command
    wpb := Builder.fresh Config.subcmdWorkPeriod .command
    rx := ⟨.idle, Config.freeRxCnt s.draws, Config.freeRxBuf s.draws⟩
    tx := ⟨.idle, Config.freeTxBuf s.draws, Config.freeTxLen s.draws, Config.freeTxIdx s.draws⟩
    busy := false
    err := 0
    draws := s.draws + 1 }

/-- The link byte in transfer when reset is asserted goes through: the byte offered to a receiving RX engine is consumed, the
byte a sending TX engine offers is sent (70_reset_and_hazards.md R125; notes/assumptions/9.md). -/
def byteInTransfer (s : State) : State :=
  { s with
    held := if s.rx.state ≠ .idle then s.held.tail else s.held
    sent := if s.tx.state = .send then s.sent ++ (s.tx.buf.toList[s.tx.idx.val]?).toList else s.sent }

/-- Reset is asserted: a request in flight is abandoned with no Result and no write of `STATUS.ERR` for it
(70_reset_and_hazards.md R125); asserting it again changes nothing. -/
def assertReset (moved : Bool) (s : State) : State :=
  if s.resetInput then s
  else { blockReset (if moved then byteInTransfer s else s) with resetInput := true }

/-- Reset is released: every element holds the value of 10_state.md R33 (70_reset_and_hazards.md R124). -/
def releaseReset (s : State) : State :=
  if s.resetInput then { blockReset s with resetInput := false } else s

/-- The Host reads a register, with no effect on the block (70_reset_and_hazards.md R136). -/
def hostRead (r : HostReg) (s : State) : State :=
  { s with reads := s.reads ++ [(r, match r with | .cfg => s.cfg | .status => s.status)] }

end Sys2Proof.Machine
end

