-- ==== Sys2Proof/Machine/Builders.lean ====
section
/-! DEFINITION. Sys2Proof/Machine/Builders.lean: the two command builders (41_command_builders.md R78 to R87). -/

namespace Sys2Proof.Machine

/-- SW_NEW (41_command_builders.md R81). -/
def execSwNew (shape : Shape) (s : State) : Out :=
  take s (.next (finish (.ok .none) { s with swb := Builder.fresh Config.subcmdSleepWake shape }))

/-- SW_SLEEP (41_command_builders.md R82). -/
def execSwSleep (s : State) : Out :=
  take s (.next (finish (.ok .none) { s with swb := s.swb.setMode 0x01 0x00 }))

/-- SW_WAKE (41_command_builders.md R83). -/
def execSwWake (s : State) : Out :=
  take s (.next (finish (.ok .none) { s with swb := s.swb.setMode 0x01 0x01 }))

/-- SW_BUILD (41_command_builders.md R84). -/
def execSwBuild (dev : Bytes) (s : State) : Out :=
  take s (.next (finish (resultOf .message (build s.swb dev)) s))

/-- WP_NEW (41_command_builders.md R85). -/
def execWpNew (shape : Shape) (s : State) : Out :=
  take s (.next (finish (.ok .none) { s with wpb := Builder.fresh Config.subcmdWorkPeriod shape }))

/-- WP_SET (41_command_builders.md R86): the range check sees the whole integer. -/
def execWpSet (minutes : Int) (s : State) : Out :=
  take s (.next (if minutes < 0 ∨ Config.minutesMax < minutes then finish (.err (.invalidArgument minutes)) s
    else finish (.ok .none) { s with wpb := s.wpb.setMode 0x01 (BitVec.ofInt 8 minutes) }))

/-- WP_BUILD (41_command_builders.md R87). -/
def execWpBuild (dev : Bytes) (s : State) : Out :=
  take s (.next (finish (resultOf .message (build s.wpb dev)) s))

end Sys2Proof.Machine
end

