-- ==== Sys2Proof/Machine/Codec.lean ====
section
/-! DEFINITION. Sys2Proof/Machine/Codec.lean: MSG_NEW, CHECKSUM, SERIALIZE (40_frame_codec.md R75 to R77). -/

namespace Sys2Proof.Machine

/-- MSG_NEW (40_frame_codec.md R75). -/
def execMsgNew (shape : Shape) (commandId : Byte) (dev payload : Bytes) (s : State) : Out :=
  take s (.next (finish (resultOf .message (newMessage shape commandId dev payload)) s))

/-- CHECKSUM (40_frame_codec.md R76). -/
def execChecksum (payload dev : Bytes) (s : State) : Out :=
  take s (.next (finish (.ok (.checksum (checksum payload dev))) s))

/-- SERIALIZE (40_frame_codec.md R77). -/
def execSerialize (m : Message) (s : State) : Out :=
  take s (needMessage m (.next (finish (.ok (.bytes (serialize m))) s)))

end Sys2Proof.Machine
end

