-- ==== Sys2Proof/Machine/LinkWrite.lean ====
section
/-! DEFINITION. Sys2Proof/Machine/LinkWrite.lean: WRITE (44_link_write.md R104). The link steps that carry it on are
`linkAccept` and `linkError` of Machine/Ops.lean (R105, R106). -/

namespace Sys2Proof.Machine

/-- `TX.len <- len(f)`: 10 or 19 for a Message (44_link_write.md R104). -/
def txLen (m : Message) : Fin 20 := Fin.ofNat 20 (serialize m).length

/-- WRITE at issue (44_link_write.md R104): no Result yet. -/
def execWrite (m : Message) (s : State) : Out :=
  take s (needMessage m (.next { s with
    tx := ⟨.send, overwriteFront s.tx.buf (serialize m), txLen m, 0⟩
    busy := true }))

end Sys2Proof.Machine
end

