-- ==== Sys2Proof/Machine/Measure.lean ====
section
/-! DEFINITION. Sys2Proof/Machine/Measure.lean: MEAS_DECODE (43_measurement_decoder.md R102) and what its raw values stand for
(R101). -/

namespace Sys2Proof.Machine

/-- The field split (43_measurement_decoder.md R100, R102). -/
def readingOf (m : Message) : Except ReqError Reading :=
  if m.payload.length ≠ 4 then .error (.invalidLength .payload m.payload.length 4)
  else .ok ⟨m.commandId, m.deviceId, u16le (m.payload.getD 0 0) (m.payload.getD 1 0),
    u16le (m.payload.getD 2 0) (m.payload.getD 3 0)⟩

/-- MEAS_DECODE (43_measurement_decoder.md R102). -/
def execMeasDecode (m : Message) (s : State) : Out :=
  take s (needMessage m (.next (finish (resultOf .reading (readingOf m)) s)))

/-- The physical value of a raw one, in micrograms per cubic metre, as an exact rational (43_measurement_decoder.md R101); the
block itself never produces it. -/
def physical (raw : BitVec 16) : Rat := (raw.toNat : Rat) / 10

end Sys2Proof.Machine
end

