-- ==== Sys2Proof/Machine/Reader.lean ====
section
/-! DEFINITION. Sys2Proof/Machine/Reader.lean: RX_CONFIG, RX_READ, FRAME_PARSE (42_frame_reader.md R91, R92, R99). The link
steps that carry an RX_READ on are `linkOffer` and `linkError` of Machine/Ops.lean (R93 to R96). -/

namespace Sys2Proof.Machine

/-- FRAME_PARSE (42_frame_reader.md R99). -/
def execFrameParse (shape : Shape) (frame : Bytes) (s : State) : Out :=
  take s (.next (finish
    (if frame.length ≠ shape.messageLength then .err (.invalidLength .frame frame.length shape.messageLength)
      else resultOf .message (parse shape frame)) s))

/-- RX_CONFIG (42_frame_reader.md R91). -/
def execRxConfig (shape : Shape) (s : State) : Out :=
  take s (.next (finish (.ok .none) { s with rxShape := shape }))

/-- RX_READ at issue (42_frame_reader.md R92): no Result yet. -/
def execRxRead (s : State) : Out :=
  take s (.next { s with busy := true, rx := { s.rx with state := .hunt } })

end Sys2Proof.Machine
end

