-- ==== Sys2Proof/Machine/Wire.lean ====
section
/-! DEFINITION. Sys2Proof/Machine/Wire.lean: the wire frame rows of spec/opcode_table.json (30_encoding.md R51 to R54). A frame
on the link port comes to be held by the Link behind what it holds, and the Link offers what it holds byte by byte: the RX
engine hunts, collects and completes as 42_frame_reader.md R93 to R98 say while an RX_READ is in flight, and every byte it does
not take waits in the Link (44_link_write.md R103). notes/assumptions/5.md says why this is one instruction. -/

namespace Sys2Proof.Machine

/-- WIRE_RESPONSE (30_encoding.md R51). -/
def execWireResponse (commandId pm25lo pm25hi pm10lo pm10hi dev0 dev1 cksum tail : Byte) (s : State) : Out :=
  linkBurst (frameBytes commandId [pm25lo, pm25hi, pm10lo, pm10hi] [dev0, dev1] cksum tail) s

/-- WIRE_COMMAND (30_encoding.md R52). -/
def execWireCommand (commandId : Byte) (payload : Bytes) (dev0 dev1 cksum tail : Byte) (s : State) : Out :=
  linkBurst (frameBytes commandId payload [dev0, dev1] cksum tail) s

/-- WIRE_SW_QUERY (30_encoding.md R53). -/
def execWireSwQuery (dev0 dev1 cksum : Byte) (s : State) : Out :=
  linkBurst (frameBytes Config.builderCmdId (swPayload 0 0) [dev0, dev1] cksum Config.tail) s

/-- WIRE_SW_SLEEP (30_encoding.md R53). -/
def execWireSwSleep (dev0 dev1 cksum : Byte) (s : State) : Out :=
  linkBurst (frameBytes Config.builderCmdId (swPayload 1 0) [dev0, dev1] cksum Config.tail) s

/-- WIRE_SW_WAKE (30_encoding.md R53). -/
def execWireSwWake (dev0 dev1 cksum : Byte) (s : State) : Out :=
  linkBurst (frameBytes Config.builderCmdId (swPayload 1 1) [dev0, dev1] cksum Config.tail) s

/-- WIRE_WP_QUERY (30_encoding.md R54). -/
def execWireWpQuery (dev0 dev1 cksum : Byte) (s : State) : Out :=
  linkBurst (frameBytes Config.builderCmdId (wpPayload 0 0) [dev0, dev1] cksum Config.tail) s

/-- WIRE_WP_SET (30_encoding.md R54). -/
def execWireWpSet (minutes dev0 dev1 cksum : Byte) (s : State) : Out :=
  linkBurst (frameBytes Config.builderCmdId (wpPayload 1 minutes) [dev0, dev1] cksum Config.tail) s

end Sys2Proof.Machine
end

