-- ==== Sys2Proof/Machine/Dispatch.lean ====
section
/-! DEFINITION. Sys2Proof/Machine/Dispatch.lean: one arm per row of spec/opcode_table.json. -/

namespace Sys2Proof.Machine

def exec (i : Instr) (s : State) : Host.Outcome State Fault Refusal :=
  match i with
  | .msgNew shape commandId dev payload => Sys2Proof.Machine.execMsgNew shape commandId dev payload s
  | .checksum payload dev => Sys2Proof.Machine.execChecksum payload dev s
  | .serialize m => Sys2Proof.Machine.execSerialize m s
  | .frameParse shape frame => Sys2Proof.Machine.execFrameParse shape frame s
  | .rxConfig shape => Sys2Proof.Machine.execRxConfig shape s
  | .rxRead => Sys2Proof.Machine.execRxRead s
  | .measDecode m => Sys2Proof.Machine.execMeasDecode m s
  | .write m => Sys2Proof.Machine.execWrite m s
  | .swNew shape => Sys2Proof.Machine.execSwNew shape s
  | .swSleep => Sys2Proof.Machine.execSwSleep s
  | .swWake => Sys2Proof.Machine.execSwWake s
  | .swBuild dev => Sys2Proof.Machine.execSwBuild dev s
  | .wpNew shape => Sys2Proof.Machine.execWpNew shape s
  | .wpSet minutes => Sys2Proof.Machine.execWpSet minutes s
  | .wpBuild dev => Sys2Proof.Machine.execWpBuild dev s
  | .wireResponse commandId p0 p1 p2 p3 dev0 dev1 cksum tail => Sys2Proof.Machine.execWireResponse commandId p0 p1 p2 p3 dev0 dev1 cksum tail s
  | .wireCommand commandId payload dev0 dev1 cksum tail => Sys2Proof.Machine.execWireCommand commandId payload dev0 dev1 cksum tail s
  | .wireSwQuery dev0 dev1 cksum => Sys2Proof.Machine.execWireSwQuery dev0 dev1 cksum s
  | .wireSwSleep dev0 dev1 cksum => Sys2Proof.Machine.execWireSwSleep dev0 dev1 cksum s
  | .wireSwWake dev0 dev1 cksum => Sys2Proof.Machine.execWireSwWake dev0 dev1 cksum s
  | .wireWpQuery dev0 dev1 cksum => Sys2Proof.Machine.execWireWpQuery dev0 dev1 cksum s
  | .wireWpSet minutes dev0 dev1 cksum => Sys2Proof.Machine.execWireWpSet minutes dev0 dev1 cksum s

end Sys2Proof.Machine
end

