-- ==== Sys2Proof/Machine/Step.lean ====
section
/-! DEFINITION. Sys2Proof/Machine/Step.lean: one step is the next move of the outside world (notes/assumptions/1.md). -/

namespace Sys2Proof.Machine

/-- The effect of one move of the outside world. -/
def stepEvent (ev : Event) (s : State) : Host.Outcome State Fault Refusal :=
  match ev with
  | .request bytes =>
    match decodeRequest bytes with
    | .ok i => exec i s
    | .error why => .refused (.reservedEncoding why)
  | .frame bytes =>
    match decodeFrame bytes with
    | .ok i => exec i s
    | .error _ => linkBurst bytes s
  | .readCfg => .next (hostRead .cfg s)
  | .readStatus => .next (hostRead .status s)
  | .assertReset moved => .next (assertReset moved s)
  | .releaseReset => .next (releaseReset s)
  | .arrive b => .next (linkArrive b s)
  | .offer => linkOffer s
  | .accept => linkAccept s
  | .linkError => .next (linkError s)

/-- One step: the next move is taken off the agenda and has its effect; with no move left the block waits
(42_frame_reader.md R97, 70_reset_and_hazards.md R126; notes/assumptions/2.md). -/
def step (s : State) : Host.Outcome State Fault Refusal :=
  match s.agenda with
  | [] => .next s
  | ev :: rest => stepEvent ev { s with agenda := rest }

/-- `s` with a table word as the next move of the outside world: a wire frame arrives on the link, a request is issued on the
host port of a block that can take one (notes/assumptions/3.md). -/
def State.withFetchWord (s : State) (nbits w : Nat) : State :=
  let bs := tableBytes nbits w
  if bs.head? = some Config.head then { s with agenda := .frame bs :: s.agenda }
  else
    { s with
      resetInput := false
      busy := false
      rx := { s.rx with state := .idle }
      tx := { s.tx with state := .idle }
      agenda := .request bs :: s.agenda }

end Sys2Proof.Machine
end

