-- ==== Sys2Proof/Machine/Text.lean ====
section
/-! DEFINITION. Sys2Proof/Machine/Text.lean: the Host side of 30_encoding.md R68 and R69: the textual form of a request, the
pseudo-requests, and the Host's session, which turns lines into requests and binds the Ok values that come back. None of it is
state of the block. -/

namespace Sys2Proof.Text

/-- A pseudo-request (30_encoding.md R69). -/
inductive Pseudo
  | sendSwQuery (dev : Bytes)
  | sendSleep (dev : Bytes)
  | sendWake (dev : Bytes)
  | sendPeriodQuery (dev : Bytes)
  | sendPeriod (minutes : Int) (dev : Bytes)
  | readMeasurement
deriving DecidableEq, Repr

/-- What a line asks for. A message operand is a name bound by an earlier line (30_encoding.md R68). -/
inductive Body
  | request (i : Instr)
  | serialize (name : String)
  | measDecode (name : String)
  | write (name : String)
  | pseudo (p : Pseudo)
deriving DecidableEq, Repr

/-- One line: `[$name =] MNEMONIC operands`. -/
structure Line where
  bind : Option String
  body : Body
deriving DecidableEq, Repr

/-! ### Reading a line (30_encoding.md R68; notes/assumptions/21.md) -/

/-- The tokens of a line. -/
inductive Tok
  | word (w : List Char)
  | opening
  | closing
  | comma
  | equals
deriving DecidableEq, Repr

/-- The word read so far (last letter first), then the tokens behind it. -/
def flush (acc : List Char) (toks : List Tok) : List Tok := if acc = [] then toks else .word acc.reverse :: toks

/-- The signs that stand for a token of their own. -/
def signs : List (Char × Tok) := [('[', .opening), (']', .closing), (',', .comma), ('=', .equals)]

/-- The tokens of a line; `;` starts a comment. -/
def lex : List Char → List Char → List Tok
  | [], acc => flush acc []
  | ';' :: _, acc => flush acc []
  | ' ' :: cs, acc => flush acc (lex cs [])
  | '\t' :: cs, acc => flush acc (lex cs [])
  | c :: cs, acc =>
    match signs.lookup c with
    | some t => flush acc (t :: lex cs [])
    | none => lex cs (c :: acc)

/-- The value of a digit of the given base: its place among the digits. -/
def digit (base : Nat) (c : Char) : Option Nat := ("0123456789ABCDEF".toList.take base).findIdx? (· == c.toUpper)

/-- `HH`. -/
def hexByte : List Char → Option Byte
  | [a, b] => do return BitVec.ofNat 8 (16 * (← digit 16 a) + (← digit 16 b))
  | _ => none

/-- A decimal number, the digits read so far standing for `acc`. -/
def decimal : List Char → Nat → Option Nat
  | [], acc => some acc
  | c :: cs, acc => do decimal cs (10 * acc + (← digit 10 c))

/-- An operand of a line. -/
inductive Operand
  | shape (s : Shape)
  | byte (b : Byte)
  | list (bs : Bytes)
  | int (n : Int)
  | name (n : String)
deriving DecidableEq, Repr

/-- A one-word operand: `resp`, `cmd`, `0xHH`, `$name` or a decimal integer. -/
def wordOperand : List Char → Option Operand
  | ['r', 'e', 's', 'p'] => some (.shape .response)
  | ['c', 'm', 'd'] => some (.shape .command)
  | '0' :: 'x' :: hh => (hexByte hh).map .byte
  | '$' :: n => if n = [] then none else some (.name (String.ofList n))
  | '-' :: ds => if ds = [] then none else (decimal ds 0).map fun k => .int (-(k : Int))
  | ds => if ds = [] then none else (decimal ds 0).map fun k => .int k

/-- The bytes of a list operand up to its closing bracket, and the tokens behind it. -/
def listOperand : List Tok → Option (Bytes × List Tok)
  | .closing :: toks => some ([], toks)
  | .word w :: toks => do
      let b ← hexByte w
      let (bs, rest) ← listOperand toks
      return (b :: bs, rest)
  | _ => none

/-- One operand at the front of the tokens, and the tokens behind it. -/
def operand : List Tok → Option (Operand × List Tok)
  | .opening :: toks => (listOperand toks).map fun (bs, rest) => (.list bs, rest)
  | .word w :: toks => (wordOperand w).map fun o => (o, toks)
  | _ => none

/-- Operands separated by commas; the fuel bounds their number. -/
def operandsFrom : Nat → List Tok → Option (List Operand)
  | 0, _ => none
  | n + 1, toks => do
      let (o, rest) ← operand toks
      match rest with
      | [] => return [o]
      | .comma :: more => return o :: (← operandsFrom n more)
      | _ => none

/-- All operands of a line. -/
def operands (toks : List Tok) : Option (List Operand) := if toks = [] then some [] else operandsFrom toks.length toks

/-- The body a mnemonic and its operands spell (30_encoding.md R60, R61, R68, R69). -/
def body (mnemonic : String) (ops : List Operand) : Option Body :=
  match mnemonic, ops with
  | "MSG_NEW", [.shape s, .byte c, .list d, .list p] => some (.request (.msgNew s c d p))
  | "CHECKSUM", [.list p, .list d] => some (.request (.checksum p d))
  | "SERIALIZE", [.name n] => some (.serialize n)
  | "FRAME_PARSE", [.shape s, .list f] => some (.request (.frameParse s f))
  | "RX_CONFIG", [.shape s] => some (.request (.rxConfig s))
  | "RX_READ", [] => some (.request .rxRead)
  | "MEAS_DECODE", [.name n] => some (.measDecode n)
  | "WRITE", [.name n] => some (.write n)
  | "SW_NEW", [.shape s] => some (.request (.swNew s))
  | "SW_SLEEP", [] => some (.request .swSleep)
  | "SW_WAKE", [] => some (.request .swWake)
  | "SW_BUILD", [.list d] => some (.request (.swBuild d))
  | "WP_NEW", [.shape s] => some (.request (.wpNew s))
  | "WP_SET", [.int n] => some (.request (.wpSet n))
  | "WP_BUILD", [.list d] => some (.request (.wpBuild d))
  | "SEND_SW_QUERY", [.list d] => some (.pseudo (.sendSwQuery d))
  | "SEND_SLEEP", [.list d] => some (.pseudo (.sendSleep d))
  | "SEND_WAKE", [.list d] => some (.pseudo (.sendWake d))
  | "SEND_PERIOD_QUERY", [.list d] => some (.pseudo (.sendPeriodQuery d))
  | "SEND_PERIOD", [.int n, .list d] => some (.pseudo (.sendPeriod n d))
  | "READ_MEASUREMENT", [] => some (.pseudo .readMeasurement)
  | _, _ => none

/-- The line these tokens spell. -/
def lineOf : List Tok → Option Line
  | .word ('$' :: n) :: .equals :: .word m :: toks => do
      if n = [] then none else return ⟨some (String.ofList n), ← body (String.ofList m) (← operands toks)⟩
  | .word m :: toks => do return ⟨none, ← body (String.ofList m) (← operands toks)⟩
  | _ => none

/-- The line a text spells. -/
def parseLine (text : String) : Option Line := lineOf (lex text.toList [])

/-! ### Pseudo-requests and the Host's session -/

/-- The expansion of a pseudo-request (30_encoding.md R69); `name` is what the line binds. -/
def Pseudo.expand (name : Option String) : Pseudo → List Line
  | .sendSwQuery dev =>
      [⟨none, .request (.swNew .command)⟩, ⟨some "t", .request (.swBuild dev)⟩, ⟨name, .write "t"⟩]
  | .sendSleep dev =>
      [⟨none, .request (.swNew .command)⟩, ⟨none, .request .swSleep⟩, ⟨some "t", .request (.swBuild dev)⟩, ⟨name, .write "t"⟩]
  | .sendWake dev =>
      [⟨none, .request (.swNew .command)⟩, ⟨none, .request .swWake⟩, ⟨some "t", .request (.swBuild dev)⟩, ⟨name, .write "t"⟩]
  | .sendPeriodQuery dev =>
      [⟨none, .request (.wpNew .command)⟩, ⟨some "t", .request (.wpBuild dev)⟩, ⟨name, .write "t"⟩]
  | .sendPeriod minutes dev =>
      [⟨none, .request (.wpNew .command)⟩, ⟨none, .request (.wpSet minutes)⟩, ⟨some "t", .request (.wpBuild dev)⟩,
        ⟨name, .write "t"⟩]
  | .readMeasurement =>
      [⟨none, .request (.rxConfig .response)⟩, ⟨some "m", .request .rxRead⟩, ⟨name, .measDecode "m"⟩]

/-- The lines a line stands for. -/
def Line.expand (l : Line) : List Line :=
  match l.body with
  | .request _ => [l]
  | .serialize _ => [l]
  | .measDecode _ => [l]
  | .write _ => [l]
  | .pseudo p => p.expand l.bind

/-- The Host's side of a run: the lines still to be issued, grouped by the line they expand, and the Ok values bound so far,
latest first. -/
structure Session where
  groups : List (List Line)
  env : List (String × Value)
deriving DecidableEq, Repr

/-- A session of these lines. -/
def Session.start (lines : List Line) : Session := ⟨lines.map Line.expand, []⟩

/-- The Message last bound to a name. -/
def messageNamed (env : List (String × Value)) (name : String) : Option Message :=
  match env.lookup name with
  | some (.message m) => some m
  | _ => none

/-- The request a line issues under these bindings. A line whose operands no request spells (a decimal int outside `ARG_W` bits,
such as WP_SET 4294967321, or a list above `MAX_OPERAND_LEN`) issues none: 30_encoding.md R68 bounds neither, and
92_eei_decisions.md D15 calls such an int not representable (notes/assumptions/21.md, a DESIGN CHOICE). -/
def Line.instr (env : List (String × Value)) (l : Line) : Option Instr :=
  Option.filter Instr.wf <|
    match l.body with
    | .request i => some i
    | .serialize n => (messageNamed env n).map .serialize
    | .measDecode n => (messageNamed env n).map .measDecode
    | .write n => (messageNamed env n).map .write
    | .pseudo _ => none

/-- The line a session issues next. -/
def Session.line (h : Session) : Option Line := (h.groups.find? (· ≠ [])).bind List.head?

/-- The bytes of the request a session issues next; a session whose next line issues none stands still
(notes/assumptions/21.md). -/
def Session.request (h : Session) : Option Bytes := (h.line.bind (Line.instr h.env)).map encode

/-- The session after the Result of its request: an Ok value is bound to the line's name; an error ends the expansion the line
belongs to (30_encoding.md R69). -/
def Session.receive (h : Session) (r : Result) : Session :=
  match h.groups.dropWhile (· = []) with
  | (l :: ls) :: rest =>
    match r with
    | .ok v => ⟨ls :: rest, match l.bind with | some n => (n, v) :: h.env | none => h.env⟩
    | .err _ => ⟨rest, h.env⟩
  | _ => h

/-- The Host issues the session's next request behind the moves already on the agenda. -/
def Session.issue (h : Session) (s : Machine.State) : Machine.State :=
  match h.request with
  | some bs => { s with agenda := s.agenda ++ [.request bs] }
  | none => s

end Sys2Proof.Text
end

