-- ==== Sys2Proof/Safety.lean ====
section
/-! DEFINITION. Sys2Proof/Safety.lean: the invariant of the machine, what a block ready for a request is, and what the end of a
run is and shows (70_reset_and_hazards.md R137). -/

namespace Sys2Proof

/-- A Message value satisfies its length invariants (00_scope.md R14). -/
def Result.messageValid : Result → Bool
  | .ok (.message m) => m.valid
  | .ok _ => true
  | .err _ => true

namespace Machine

/-- The Host may issue a request: reset is released and `BUSY` is 0 (10_state.md R22, 60_exceptions.md R118). -/
abbrev State.Ready (s : State) : Prop := s.resetInput = false ∧ s.busy = false

/-- What every step keeps. -/
structure State.Inv (s : State) : Prop where
  /-- `BUSY` is 1 exactly while an RX_READ or a WRITE is in flight (10_state.md R22). -/
  busy_iff : s.busy = true ↔ (s.rx.state ≠ .idle ∨ s.tx.state = .send)
  /-- Only one request is in flight (00_scope.md R7). -/
  one_request : s.rx.state = .idle ∨ s.tx.state = .idle
  /-- In COLLECT, `RX.cnt` runs from 1 to below the frame length (42_frame_reader.md R94). -/
  rx_count : s.rx.state = .collect → 1 ≤ s.rx.cnt.val ∧ s.rx.cnt.val < s.rxShape.messageLength
  /-- In COLLECT, the head is stored (42_frame_reader.md R93). -/
  rx_head : s.rx.state = .collect → s.rx.buf[0] = Config.head
  /-- In SEND, `TX.len` is the length of a frame of one shape (44_link_write.md R104). -/
  tx_length : s.tx.state = .send → s.tx.len.val = Shape.response.messageLength ∨ s.tx.len.val = Shape.command.messageLength
  /-- In SEND, `TX.idx` is the index of a byte of the frame (44_link_write.md R105). -/
  tx_index : s.tx.state = .send → s.tx.idx.val < s.tx.len.val
  /-- Error codes 4 to 7 are never written (60_exceptions.md R111). -/
  err_code : s.err.toNat ≤ 3
  /-- The sleep/wake buffer holds the query, sleep or wake payload (10_state.md R20, 30_encoding.md R53). -/
  sw_payload : s.swb.buf.toList = swPayload 0 0 ∨ s.swb.buf.toList = swPayload 1 0 ∨ s.swb.buf.toList = swPayload 1 1
  /-- The working-period buffer holds the query payload or that of a set period (10_state.md R20, 30_encoding.md R54). -/
  wp_payload : s.wpb.buf.toList = wpPayload 0 0 ∨ ∃ n : Byte, s.wpb.buf.toList = wpPayload 1 n
  /-- Every Message returned is one (00_scope.md R14). -/
  results_valid : ∀ r ∈ s.results, r.messageValid = true
  /-- While reset is asserted no request is in flight, since its assertion abandons one (70_reset_and_hazards.md R125), and
  `STATUS.ERR` is 0: the spec gives that value on release only (R124); that it holds from the assertion on is a DESIGN CHOICE
  (notes/assumptions/8.md). -/
  in_reset : s.resetInput = true → s.busy = false ∧ s.err = 0

/-- `n` steps, stopping at the first fault or refusal. -/
def runSteps : Nat → State → Host.Outcome State Fault Refusal
  | 0, s => .next s
  | n + 1, s =>
    match step s with
    | .next t => runSteps n t
    | .fault r => .fault r
    | .refused r => .refused r

/-- Whether the Host has still a request to issue. -/
def State.requestsLeft (s : State) : Bool :=
  s.agenda.any fun ev => match ev with | .request _ => true | _ => false

/-- The step from `s` to `t` ends the run: it has returned a Result, the last request's, since the Host has none left, and
`BUSY` = 0 (70_reset_and_hazards.md R137). A last request that reset abandons returns no Result (R125), so no step ends its
run. -/
def runEnds (s t : State) : Bool := decide (s.results.length < t.results.length) && !t.busy && !t.requestsLeft

/-- What the end of a run shows (70_reset_and_hazards.md R137). -/
structure Observation where
  results : List Result
  cfg : Byte
  status : Byte
  swb : Builder
  wpb : Builder
  sent : Bytes
  held : Bytes
deriving DecidableEq, Repr

/-- What is observed of a state in which a run ends. -/
def State.observation (s : State) : Observation := ⟨s.results, s.cfg, s.status, s.swb, s.wpb, s.sent, s.held⟩

/-- The observation of the run from `s`, if the run ends within `n` steps: that of the state in which it ends, whatever moves
follow. A run with no request has no last Result and so is never observed; the spec does not say whether it has ended
(notes/assumptions/23.md, a DESIGN CHOICE). -/
def State.observe : Nat → State → Option Observation
  | 0, _ => none
  | n + 1, s =>
    match step s with
    | .next t => if runEnds s t then some t.observation else t.observe n
    | .fault _ => none
    | .refused _ => none

end Machine
end Sys2Proof
end

