-- ==== Sys2Proof/Certificates/Slice0/Obligations.lean ====
section
/-! DEFINITION. Sys2Proof/Certificates/Slice0/Obligations.lean: the statements for the provers, from the numbered rules of
spec/. -/

open Sys2Proof Sys2Proof.Machine

/-! ### Encodings -/

/-- Words written out from 30_encoding.md R51, R52, R54, R60, R61 (and listed in 95_test_vectors.md) decode to what they stand
for. The last word is a command frame of R52 too; that it decodes to WIRE_WP_SET is the model's choice (notes/assumptions/22.md, a
DESIGN CHOICE). -/
def Obligations.SpecWordsDecode : Prop :=
  decode [0x01, 0x00, 0x5A, 0x02, 0xA2, 0xD5, 0x04, 0xD4, 0x04, 0x3A, 0x0A] =
    .ok (.msgNew .response 0x5A [0xA2, 0xD5] [0xD4, 0x04, 0x3A, 0x0A]) ∧
  decode [0x02, 0x02, 0x01, 0x02, 0x04, 0x03, 0x04, 0x05, 0x06] = .ok (.checksum [0x01, 0x02] [0x03, 0x04, 0x05, 0x06]) ∧
  decode [0x05, 0x01] = .ok (.rxConfig .command) ∧
  decode [0x06] = .ok .rxRead ∧
  decode [0x07, 0x00, 0x5A, 0x02, 0xA2, 0xD5, 0x04, 0xD4, 0x04, 0x3A, 0x0A] =
    .ok (.measDecode ⟨.response, 0x5A, [0xA2, 0xD5], [0xD4, 0x04, 0x3A, 0x0A]⟩) ∧
  decode [0x13, 0x03, 0xA2, 0xD5, 0x00] = .ok (.swBuild [0xA2, 0xD5, 0x00]) ∧
  decode [0x19, 0x2C, 0x01, 0x00, 0x00] = .ok (.wpSet 300) ∧
  decode [0x19, 0xFF, 0xFF, 0xFF, 0xFF] = .ok (.wpSet (-1)) ∧
  decode [0xAA, 0x5A, 0xD4, 0x04, 0x3A, 0x0A, 0xA2, 0xD5, 0x93, 0xAB] =
    .ok (.wireResponse 0x5A 0xD4 0x04 0x3A 0x0A 0xA2 0xD5 0x93 0xAB) ∧
  decode [0xAA, 0xB4, 0x08, 0x01, 0x19, 0, 0, 0, 0, 0, 0, 0, 0, 0, 0, 0xA2, 0xD5, 0x99, 0xAB] =
    .ok (.wireWpSet 0x19 0xA2 0xD5 0x99)

/-- Decoding an encoded well-formed instruction gives it back, for every row of spec/opcode_table.json (30_encoding.md R50 to
R54, R58 to R61, R63). That a builder row's frame decodes to that row before WIRE_COMMAND, and the exclusion of such frames from the
well-formed WIRE_COMMAND, are the model's choice (notes/assumptions/22.md, a DESIGN CHOICE). -/
def Obligations.DecodeEncodeRoundTrip : Prop := ∀ i : Instr, i.wf = true → decode (encode i) = .ok i

/-- Every byte string that decodes is the encoding of what it decodes to, and a decoded frame is well-formed: each instruction
has one spelling, and no byte of it is dropped. Two points are the model's choice: that a request with bytes behind its last field
does not decode (notes/assumptions/10.md, DEDUCED), and that a decoded WIRE_COMMAND is never a builder row's frame
(notes/assumptions/22.md, a DESIGN CHOICE). -/
def Obligations.DecodableBytesAreCanonical : Prop :=
  ∀ (bs : Bytes) (i : Instr), decode bs = .ok i → encode i = bs ∧ (i.isWire = true → i.wf = true)

/-- 30_encoding.md R66: a reserved opcode, a shape byte other than 0x00 and 0x01, a list length byte above the limit, a request
shorter than its format, a format-HM operand that is not a Message, and any request while `BUSY` = 1 are refused. -/
def Obligations.ReservedRequestsRefused : Prop :=
  (∀ (s : State) (op : Byte) (rest : Bytes) (later : List Event),
    op ∉ [0x01, 0x02, 0x03, 0x04, 0x05, 0x06, 0x07, 0x08, 0x10, 0x11, 0x12, 0x13, 0x18, 0x19, (0x1A : Byte)] →
    s.agenda = .request (op :: rest) :: later → step s = .refused (.reservedEncoding .reservedOpcode)) ∧
  (∀ (s : State) (op sh : Byte) (rest : Bytes) (later : List Event),
    op ∈ [0x01, 0x03, 0x04, 0x05, 0x07, 0x08, 0x10, (0x18 : Byte)] → sh ≠ 0x00 → sh ≠ 0x01 →
    s.agenda = .request (op :: sh :: rest) :: later → step s = .refused (.reservedEncoding .badShape)) ∧
  (∀ (maxLen : Nat) (n : Byte) (rest : Bytes),
    maxLen < n.toNat → Decode.listFieldUpTo maxLen (n :: rest) = .error .listTooLong) ∧
  (∀ (s : State) (i : Instr) (k : Nat) (later : List Event), i.wf = true → i.isWire = false → k < (encode i).length →
    s.agenda = .request ((encode i).take k) :: later → step s = .refused (.reservedEncoding .truncated)) ∧
  (∀ (s : State) (m : Message), s.Ready → m.valid = false →
    exec (.serialize m) s = .refused .notAMessage ∧ exec (.measDecode m) s = .refused .notAMessage ∧
      exec (.write m) s = .refused .notAMessage) ∧
  (∀ (s : State) (i : Instr), s.resetInput = false → s.busy = true → i.isWire = false → exec i s = .refused .busy)

/-- A step runs the decoded instruction: a request at the head of the agenda on the host port, a frame on the link port, with
the move taken off the agenda and nothing else around it. The agenda (notes/assumptions/1.md) and a whole frame as one move
(notes/assumptions/5.md) are the model's choice, both a DESIGN CHOICE. -/
def Obligations.StepRunsDecoded : Prop :=
  (∀ (s : State) (bs : Bytes) (later : List Event) (i : Instr), s.agenda = .request bs :: later →
    decodeRequest bs = .ok i → step s = exec i { s with agenda := later }) ∧
  (∀ (s : State) (bs : Bytes) (later : List Event) (i : Instr), s.agenda = .frame bs :: later →
    decodeFrame bs = .ok i → step s = exec i { s with agenda := later })

/-- 30_encoding.md R65: the bytes of a Result. -/
def Obligations.ResultBytes : Prop :=
  (∀ m : Message, m.deviceId.length < 256 → m.payload.length < 256 →
    (Result.ok (.message m)).encode = [0x00, m.shape.toByte, m.commandId, BitVec.ofNat 8 m.deviceId.length] ++ m.deviceId ++
      [BitVec.ofNat 8 m.payload.length] ++ m.payload) ∧
  (∀ bs : Bytes, bs.length < 256 → (Result.ok (.bytes bs)).encode = [0x00, BitVec.ofNat 8 bs.length] ++ bs) ∧
  (∀ b : Byte, (Result.ok (.checksum b)).encode = [0x00, b]) ∧
  (∀ n : Nat, n < 256 → (Result.ok (.count n)).encode = [0x00, BitVec.ofNat 8 n]) ∧
  (∀ (c : Byte) (d : Bytes) (lo25 hi25 lo10 hi10 : Byte), d.length < 256 →
    (Result.ok (.reading ⟨c, d, hi25 ++ lo25, hi10 ++ lo10⟩)).encode =
      [0x00, c, BitVec.ofNat 8 d.length] ++ d ++ [lo25, hi25, lo10, hi10]) ∧
  (Result.ok .none).encode = [0x00] ∧
  (∀ a e : Nat, a < 256 → e < 256 →
    (Result.err (.invalidLength .payload a e)).encode = [0x01, 0x00, BitVec.ofNat 8 a, BitVec.ofNat 8 e] ∧
    (Result.err (.invalidLength .deviceId a e)).encode = [0x01, 0x01, BitVec.ofNat 8 a, BitVec.ofNat 8 e] ∧
    (Result.err (.invalidLength .frame a e)).encode = [0x01, 0x02, BitVec.ofNat 8 a, BitVec.ofNat 8 e]) ∧
  (∀ b0 b1 b2 b3 : Byte,
    (Result.err (.invalidArgument (b3 ++ b2 ++ b1 ++ b0 : BitVec 32).toInt)).encode = [0x02, b0, b1, b2, b3]) ∧
  (Result.err .transportError).encode = [0x03]

/-! ### Codec requests -/

/-- MSG_NEW (40_frame_codec.md R72, R75): the payload length is checked first, then the device-id length; only `STATUS.ERR` is
written. -/
def Obligations.MsgNewResult : Prop :=
  ∀ (s : State) (sh : Shape) (c : Byte) (d p : Bytes), s.Ready →
    (p.length ≠ sh.dataLength → exec (.msgNew sh c d p) s =
      .next { s with err := 1, results := s.results ++ [.err (.invalidLength .payload p.length sh.dataLength)] }) ∧
    (p.length = sh.dataLength → d.length ≠ 2 → exec (.msgNew sh c d p) s =
      .next { s with err := 1, results := s.results ++ [.err (.invalidLength .deviceId d.length 2)] }) ∧
    (p.length = sh.dataLength → d.length = 2 → exec (.msgNew sh c d p) s =
      .next { s with err := 0, results := s.results ++ [.ok (.message ⟨sh, c, d, p⟩)] })

/-- CHECKSUM (40_frame_codec.md R70, R76): the sum of all payload and device-id bytes modulo 256, for lists of any length. -/
def Obligations.ChecksumResult : Prop :=
  ∀ (s : State) (p d : Bytes), s.Ready → exec (.checksum p d) s =
    .next { s with
      err := 0
      results := s.results ++ [.ok (.checksum (BitVec.ofNat 8 (((p ++ d).map BitVec.toNat).sum % 256)))] }

/-- 40_frame_codec.md R71 (a) to (d): the checksum does not depend on the command_id, is 0x00 for empty lists, sums at most
3825 (command) and 1530 (response) before reduction, follows a change of one byte by the same amount modulo 256, and does not see
two changes that cancel. -/
def Obligations.ChecksumProperties : Prop :=
  (∀ (m : Message) (c : Byte), m.valid = true →
    (serialize { m with commandId := c })[m.shape.messageLength - 2]? = (serialize m)[m.shape.messageLength - 2]?) ∧
  checksum [] [] = 0x00 ∧
  (∀ p d : Bytes, d.length = 2 → (p.length = 13 → sumBytes p + sumBytes d ≤ 3825) ∧
    (p.length = 4 → sumBytes p + sumBytes d ≤ 1530)) ∧
  (∀ (p d : Bytes) (k : Byte) (i : Nat),
    (i < p.length → checksum (p.set i (p.getD i 0 + k)) d = checksum p d + k) ∧
    (i < d.length → checksum p (d.set i (d.getD i 0 + k)) = checksum p d + k)) ∧
  (∀ (p d : Bytes) (k : Byte) (i j : Nat),
    (i < p.length → j < p.length → i ≠ j →
      checksum ((p.set i (p.getD i 0 + k)).set j (p.getD j 0 - k)) d = checksum p d) ∧
    (i < d.length → j < d.length → i ≠ j →
      checksum p ((d.set i (d.getD i 0 + k)).set j (d.getD j 0 - k)) = checksum p d) ∧
    (i < p.length → j < d.length → checksum (p.set i (p.getD i 0 + k)) (d.set j (d.getD j 0 - k)) = checksum p d))

/-- SERIALIZE (40_frame_codec.md R73, R77): head, command_id, payload, device id, checksum, tail; nothing is sent; an operand
that is not a Message is refused. -/
def Obligations.SerializeResult : Prop :=
  ∀ (s : State) (m : Message), s.Ready →
    (m.valid = true → exec (.serialize m) s = .next { s with
      err := 0
      results := s.results ++ [.ok (.bytes ([0xAA, m.commandId] ++ m.payload ++ m.deviceId ++
        [BitVec.ofNat 8 (((m.payload ++ m.deviceId).map BitVec.toNat).sum % 256), 0xAB]))] }) ∧
    (m.valid = false → exec (.serialize m) s = .refused .notAMessage)

/-- 40_frame_codec.md R74: a serialized Message has the frame length of its shape, starts with 0xAA, ends with 0xAB, carries the
command_id at index 1 and the checksum at index L-2. -/
def Obligations.SerializedFrameShape : Prop :=
  ∀ m : Message, m.valid = true →
    (serialize m).length = m.shape.messageLength ∧ (serialize m)[0]? = some 0xAA ∧
    (serialize m)[m.shape.messageLength - 1]? = some 0xAB ∧ (serialize m)[1]? = some m.commandId ∧
    (serialize m)[m.shape.messageLength - 2]? = some (checksum m.payload m.deviceId)

/-- 42_frame_reader.md R90, on the machine: FRAME_PARSE of a serialized Message returns that Message. -/
def Obligations.ParseOfSerializedReturnsMessage : Prop :=
  ∀ (s : State) (m : Message), s.Ready → m.valid = true →
    parse m.shape (serialize m) = .ok m ∧
    exec (.frameParse m.shape (serialize m)) s =
      .next { s with err := 0, results := s.results ++ [.ok (.message m)] }

/-- FRAME_PARSE (42_frame_reader.md R88, R99): the length is checked, then the fields are taken at their fixed offsets. -/
def Obligations.FrameParseResult : Prop :=
  ∀ (s : State) (sh : Shape) (f : Bytes), s.Ready →
    (f.length ≠ sh.messageLength → exec (.frameParse sh f) s =
      .next { s with err := 1, results := s.results ++ [.err (.invalidLength .frame f.length sh.messageLength)] }) ∧
    (f.length = sh.messageLength → exec (.frameParse sh f) s =
      .next { s with
        err := 0
        results := s.results ++ [.ok (.message ⟨sh, f.getD 1 0,
          [f.getD (sh.messageLength - 4) 0, f.getD (sh.messageLength - 3) 0], (f.drop 2).take sh.dataLength⟩)] })

/-- 42_frame_reader.md R89 (b): head, checksum and tail are read by nobody: frames that agree everywhere else parse alike. -/
def Obligations.ParseIgnoresHeadChecksumTail : Prop :=
  ∀ (s : State) (sh : Shape) (f g : Bytes), f.length = sh.messageLength → g.length = sh.messageLength →
    (∀ k, 1 ≤ k → k < sh.messageLength - 2 → f[k]? = g[k]?) → exec (.frameParse sh f) s = exec (.frameParse sh g) s

/-- MEAS_DECODE (43_measurement_decoder.md R100, R102): two little-endian values of a Response, InvalidLength(payload, 13, 4) for
a Command. -/
def Obligations.MeasDecodeResult : Prop :=
  ∀ (s : State) (m : Message), s.Ready → m.valid = true →
    (∀ a b c d : Byte, m.payload = [a, b, c, d] → exec (.measDecode m) s =
      .next { s with
        err := 0
        results := s.results ++ [.ok (.reading ⟨m.commandId, m.deviceId,
          BitVec.ofNat 16 (a.toNat + 256 * b.toNat), BitVec.ofNat 16 (c.toNat + 256 * d.toNat)⟩)] }) ∧
    (m.shape = .response → ∃ a b c d : Byte, m.payload = [a, b, c, d]) ∧
    (m.shape = .command → exec (.measDecode m) s =
      .next { s with err := 1, results := s.results ++ [.err (.invalidLength .payload 13 4)] })

/-! ### Builders -/

/-- SW_NEW (41_command_builders.md R81). -/
def Obligations.SwNewResult : Prop :=
  ∀ (s : State) (sh : Shape), s.Ready → exec (.swNew sh) s =
    .next { s with
      swb := ⟨#v[0x06, 0, 0, 0, 0, 0, 0, 0, 0, 0, 0, 0, 0], sh⟩
      err := 0
      results := s.results ++ [.ok .none] }

/-- SW_SLEEP and SW_WAKE (41_command_builders.md R82, R83). -/
def Obligations.SwSleepWakeResult : Prop :=
  ∀ s : State, s.Ready →
    exec .swSleep s = .next { s with
      swb := { s.swb with buf := (s.swb.buf.set 1 0x01).set 2 0x00 }
      err := 0
      results := s.results ++ [.ok .none] } ∧
    exec .swWake s = .next { s with
      swb := { s.swb with buf := (s.swb.buf.set 1 0x01).set 2 0x01 }
      err := 0
      results := s.results ++ [.ok .none] }

/-- SW_BUILD and WP_BUILD (41_command_builders.md R79, R80, R84, R87): the builder is read and kept. -/
def Obligations.BuildResult : Prop :=
  ∀ (s : State) (d : Bytes), s.Ready →
    (s.swb.shape = .response → exec (.swBuild d) s =
      .next { s with err := 1, results := s.results ++ [.err (.invalidLength .payload 13 4)] }) ∧
    (s.swb.shape = .command → d.length ≠ 2 → exec (.swBuild d) s =
      .next { s with err := 1, results := s.results ++ [.err (.invalidLength .deviceId d.length 2)] }) ∧
    (s.swb.shape = .command → d.length = 2 → exec (.swBuild d) s =
      .next { s with err := 0, results := s.results ++ [.ok (.message ⟨.command, 0xB4, d, s.swb.buf.toList⟩)] }) ∧
    (s.wpb.shape = .response → exec (.wpBuild d) s =
      .next { s with err := 1, results := s.results ++ [.err (.invalidLength .payload 13 4)] }) ∧
    (s.wpb.shape = .command → d.length ≠ 2 → exec (.wpBuild d) s =
      .next { s with err := 1, results := s.results ++ [.err (.invalidLength .deviceId d.length 2)] }) ∧
    (s.wpb.shape = .command → d.length = 2 → exec (.wpBuild d) s =
      .next { s with err := 0, results := s.results ++ [.ok (.message ⟨.command, 0xB4, d, s.wpb.buf.toList⟩)] })

/-- WP_NEW (41_command_builders.md R85). -/
def Obligations.WpNewResult : Prop :=
  ∀ (s : State) (sh : Shape), s.Ready → exec (.wpNew sh) s =
    .next { s with
      wpb := ⟨#v[0x08, 0, 0, 0, 0, 0, 0, 0, 0, 0, 0, 0, 0], sh⟩
      err := 0
      results := s.results ++ [.ok .none] }

/-- WP_SET (41_command_builders.md R86): the whole integer is range checked; a failed set keeps the builder. -/
def Obligations.WpSetResult : Prop :=
  ∀ (s : State) (n : Int), s.Ready →
    (n < 0 ∨ 255 < n → exec (.wpSet n) s =
      .next { s with err := 2, results := s.results ++ [.err (.invalidArgument n)] }) ∧
    (0 ≤ n → n ≤ 255 → exec (.wpSet n) s =
      .next { s with
        wpb := { s.wpb with buf := (s.wpb.buf.set 1 0x01).set 2 (BitVec.ofNat 8 n.toNat) }
        err := 0
        results := s.results ++ [.ok .none] })

/-- 41_command_builders.md R78: the last of two conflicting set calls wins, without an error, and the builder is as after that
call alone. -/
def Obligations.LastSetCallWins : Prop :=
  ∀ s : State, s.Ready →
    (∃ t u v, exec .swWake s = .next t ∧ exec .swSleep t = .next u ∧ exec .swSleep s = .next v ∧ u.swb = v.swb ∧ u.err = 0) ∧
    (∃ t u v, exec .swSleep s = .next t ∧ exec .swWake t = .next u ∧ exec .swWake s = .next v ∧ u.swb = v.swb ∧ u.err = 0) ∧
    (∀ n k : Int, 0 ≤ n → n ≤ 255 → 0 ≤ k → k ≤ 255 → ∃ t u v, exec (.wpSet n) s = .next t ∧ exec (.wpSet k) t = .next u ∧
      exec (.wpSet k) s = .next v ∧ u.wpb = v.wpb ∧ u.err = 0)

/-- 70_reset_and_hazards.md R132: BUILD keeps the builders; only SW_NEW and WP_NEW return a builder to the query payload; a
failed WP_SET keeps the earlier period. -/
def Obligations.BuildersPersist : Prop :=
  ∀ (s t : State) (i : Instr), exec i s = .next t →
    (∀ d, i = .swBuild d ∨ i = .wpBuild d → t.swb = s.swb ∧ t.wpb = s.wpb) ∧
    (s.swb.buf[1] = 0x01 → t.swb.buf[1] ≠ 0x01 → ∃ sh, i = .swNew sh) ∧
    (s.wpb.buf[1] = 0x01 → t.wpb.buf[1] ≠ 0x01 → ∃ sh, i = .wpNew sh) ∧
    (∀ n, i = .wpSet n → t.err ≠ 0 → t.wpb = s.wpb)

/-- 30_encoding.md R53 to R55: in every state the invariant allows, the frame of a successful SW_BUILD or WP_BUILD is one of the
builders' rows of the opcode table, with the device id given and the checksum of R50. Such a frame has the layout of R52 too; that
it decodes to the builder row and not to WIRE_COMMAND is the model's choice (notes/assumptions/22.md, a DESIGN CHOICE). -/
def Obligations.BuiltFramesAreTheirRows : Prop :=
  ∀ (s : State) (a b : Byte), s.Inv →
    (∀ m, build s.swb [a, b] = .ok m → ∃ k : Byte, k = checksum m.payload [a, b] ∧
      (decodeFrame (serialize m) = .ok (.wireSwQuery a b k) ∨ decodeFrame (serialize m) = .ok (.wireSwSleep a b k) ∨
        decodeFrame (serialize m) = .ok (.wireSwWake a b k))) ∧
    (∀ m, build s.wpb [a, b] = .ok m → ∃ k : Byte, k = checksum m.payload [a, b] ∧
      (decodeFrame (serialize m) = .ok (.wireWpQuery a b k) ∨
        ∃ n : Byte, decodeFrame (serialize m) = .ok (.wireWpSet n a b k)))

/-! ### Frames of the requests -/

/-- Frame of the requests that only compute (MSG_NEW, CHECKSUM, SERIALIZE, FRAME_PARSE, MEAS_DECODE, SW_BUILD, WP_BUILD): they
write `STATUS.ERR` and return one Result, and leave everything else (70_reset_and_hazards.md R135, 10_state.md R23). -/
def Obligations.ComputingRequestsFrame : Prop :=
  ∀ (i : Instr) (s t : State),
    ((∃ sh c d p, i = .msgNew sh c d p) ∨ (∃ p d, i = .checksum p d) ∨ (∃ m, i = .serialize m) ∨
      (∃ sh f, i = .frameParse sh f) ∨ (∃ m, i = .measDecode m) ∨ (∃ d, i = .swBuild d) ∨ (∃ d, i = .wpBuild d)) →
    exec i s = .next t → ∃ r : Result, t = { s with err := r.code, results := s.results ++ [r] }

/-- Frame of the requests that set one element (SW_NEW, SW_SLEEP, SW_WAKE: `SWB`; WP_NEW, WP_SET: `WPB`; RX_CONFIG:
`CFG.RX_SHAPE`): that element, `STATUS.ERR` and one Result; the engines, the ports and the other elements keep. -/
def Obligations.SettingRequestsFrame : Prop :=
  ∀ (s t : State),
    (∀ i, (∃ sh, i = .swNew sh) ∨ i = .swSleep ∨ i = .swWake → exec i s = .next t →
      ∃ r : Result, t = { s with swb := t.swb, err := r.code, results := s.results ++ [r] }) ∧
    (∀ i, (∃ sh, i = .wpNew sh) ∨ (∃ n, i = .wpSet n) → exec i s = .next t →
      ∃ r : Result, t = { s with wpb := t.wpb, err := r.code, results := s.results ++ [r] }) ∧
    (∀ sh, exec (.rxConfig sh) s = .next t →
      t = { s with rxShape := sh, err := 0, results := s.results ++ [.ok .none] })

/-- Frame of the requests that start an engine: RX_READ writes `BUSY` and `RX.state`, WRITE writes `BUSY` and `TX`; neither
returns a Result yet. -/
def Obligations.EngineRequestsFrame : Prop :=
  ∀ (s t : State),
    (exec .rxRead s = .next t → t = { s with busy := t.busy, rx := { s.rx with state := t.rx.state } }) ∧
    (∀ m, exec (.write m) s = .next t → t = { s with busy := t.busy, tx := t.tx })

/-- Frame of the wire rows: an arriving frame leaves `CFG`, the builders, the TX engine, the bytes sent, the register reads, the
reset input and the agenda, and the RX engine too while no RX_READ is in flight. A whole frame as one
move is the model's choice (notes/assumptions/5.md, a DESIGN CHOICE). -/
def Obligations.WireFramesFrame : Prop :=
  ∀ (i : Instr) (s t : State), i.isWire = true → exec i s = .next t →
    t.rxShape = s.rxShape ∧ t.swb = s.swb ∧ t.wpb = s.wpb ∧ t.tx = s.tx ∧ t.sent = s.sent ∧ t.reads = s.reads ∧
      t.resetInput = s.resetInput ∧ t.agenda = s.agenda ∧ t.draws = s.draws ∧
      (s.rx.state = .idle → t.rx = s.rx ∧ t.busy = s.busy ∧ t.err = s.err ∧ t.results = s.results)

/-- 60_exceptions.md R114: a request that ends in an error writes `STATUS.ERR` with its code and no other state; a link error
also clears `BUSY` and returns the engine of the request it ends to IDLE: the RX engine where an RX_READ was in flight, the TX
engine where a WRITE was. -/
def Obligations.ErrorWritesOnlyStatus : Prop :=
  (∀ (i : Instr) (s t : State) (e : ReqError), i.isWire = false → exec i s = .next t →
    t.results = s.results ++ [.err e] → t = { s with err := e.code, results := s.results ++ [.err e] }) ∧
  (∀ (s t : State) (later : List Event), s.agenda = .linkError :: later → step s = .next t → t.results ≠ s.results →
    (s.rx.state ≠ .idle → t = { s with
      agenda := later
      rx := { s.rx with state := .idle }
      busy := false
      err := 3
      results := s.results ++ [.err .transportError] }) ∧
    (s.rx.state = .idle → s.tx.state = .send ∧ t = { s with
      agenda := later
      tx := { s.tx with state := .idle }
      busy := false
      err := 3
      results := s.results ++ [.err .transportError] }))

/-! ### The frame reader -/

/-- RX_CONFIG (42_frame_reader.md R91): the shape is written; while a request is in flight it is refused. -/
def Obligations.RxConfigResult : Prop :=
  ∀ (s : State) (sh : Shape), s.resetInput = false →
    (s.busy = false →
      exec (.rxConfig sh) s = .next { s with rxShape := sh, err := 0, results := s.results ++ [.ok .none] }) ∧
    (s.busy = true → exec (.rxConfig sh) s = .refused .busy)

/-- RX_READ at issue (42_frame_reader.md R92). -/
def Obligations.RxReadIssue : Prop :=
  ∀ s : State, s.Ready → exec .rxRead s = .next { s with busy := true, rx := { s.rx with state := .hunt } }

/-- HUNT step (42_frame_reader.md R93): 0xAA is stored and starts COLLECT, any other byte is discarded. -/
def Obligations.HuntStep : Prop :=
  ∀ (s : State) (b : Byte) (rest : Bytes) (later : List Event), s.resetInput = false → s.rx.state = .hunt →
    s.held = b :: rest → s.agenda = .offer :: later →
    (b = 0xAA → step s = .next { s with
      agenda := later
      held := rest
      rx := ⟨.collect, 1, s.rx.buf.set 0 0xAA⟩ }) ∧
    (b ≠ 0xAA → step s = .next { s with agenda := later, held := rest })

/-- COLLECT step and completion (42_frame_reader.md R94, R95): the byte is stored whatever it is; the last byte of the frame
ends the RX_READ with the Message at the fixed offsets of the collected frame; in every state the invariant allows `RX.cnt` runs
from 1 and never exceeds the frame length. -/
def Obligations.CollectStep : Prop :=
  ∀ (s : State) (b : Byte) (rest : Bytes) (later : List Event) (h : s.rx.cnt.val < 19), s.resetInput = false →
    s.rx.state = .collect → s.held = b :: rest → s.agenda = .offer :: later →
    (s.rx.cnt.val + 1 ≠ s.rxShape.messageLength → step s = .next { s with
      agenda := later
      held := rest
      rx := ⟨.collect, s.rx.cnt + 1, s.rx.buf.set s.rx.cnt.val b⟩ }) ∧
    (s.rx.cnt.val + 1 = s.rxShape.messageLength → ∃ m : Message,
      parse s.rxShape ((s.rx.buf.set s.rx.cnt.val b).toList.take s.rxShape.messageLength) = .ok m ∧
      step s = .next { s with
        agenda := later
        held := rest
        rx := ⟨.idle, s.rx.cnt + 1, s.rx.buf.set s.rx.cnt.val b⟩
        busy := false
        err := 0
        results := s.results ++ [.ok (.message m)] }) ∧
    (s.Inv → 1 ≤ s.rx.cnt.val ∧ s.rx.cnt.val + 1 ≤ s.rxShape.messageLength)

/-- 42_frame_reader.md R98: an RX_READ in HUNT, offered a stream `g ++ [0xAA] ++ r ++ rest` with no 0xAA in `g` and a full
remainder `r`, consumes exactly `g ++ [0xAA] ++ r`, returns the parse of `[0xAA] ++ r` and leaves `rest` in the Link. -/
def Obligations.RxReadOfStream : Prop :=
  ∀ (s : State) (g r rest : Bytes) (later : List Event), s.resetInput = false → s.rx.state = .hunt →
    s.held = g ++ [0xAA] ++ r ++ rest → (∀ b ∈ g, b ≠ 0xAA) → r.length + 1 = s.rxShape.messageLength →
    s.agenda = List.replicate (g.length + s.rxShape.messageLength) .offer ++ later →
    ∃ (m : Message) (t : State), parse s.rxShape ([0xAA] ++ r) = .ok m ∧
      runSteps (g.length + s.rxShape.messageLength) s = .next t ∧
      t = { s with
        agenda := later
        held := rest
        rx := t.rx
        busy := false
        err := 0
        results := s.results ++ [.ok (.message m)] } ∧
      t.rx.state = .idle ∧ t.rx.cnt.val = s.rxShape.messageLength ∧
      t.rx.buf.toList.take s.rxShape.messageLength = [0xAA] ++ r

/-- Link error during an RX_READ (42_frame_reader.md R96). -/
def Obligations.RxLinkError : Prop :=
  ∀ (s : State) (later : List Event), s.resetInput = false → s.rx.state = .hunt ∨ s.rx.state = .collect →
    s.agenda = .linkError :: later → step s = .next { s with
      agenda := later
      rx := { s.rx with state := .idle }
      busy := false
      err := 3
      results := s.results ++ [.err .transportError] }

/-- 42_frame_reader.md R97, 70_reset_and_hazards.md R134: a wait ends only by a link event or a reset. From a state the
invariant allows, with a request in flight, a step that answers a next state and whose move is no offer, no frame, no acceptance,
no link error and no reset leaves the engines, `BUSY` and the Results. A whole frame as one
move is the model's choice (notes/assumptions/5.md, a DESIGN CHOICE). -/
def Obligations.WaitEndsOnlyByLinkOrReset : Prop :=
  ∀ s t : State, s.Inv → s.busy = true → step s = .next t →
    (t.rx = s.rx ∧ t.tx = s.tx ∧ t.busy = true ∧ t.results = s.results ∧ t.err = s.err) ∨
    ∃ later, s.agenda = .offer :: later ∨ s.agenda = .accept :: later ∨ s.agenda = .linkError :: later ∨
      (∃ moved, s.agenda = .assertReset moved :: later) ∨ ∃ bs, s.agenda = .frame bs :: later

/-! ### Frames on the link -/

/-- WIRE_RESPONSE to an RX_READ in HUNT with shape Response and nothing older in the Link (30_encoding.md R51, R57;
42_frame_reader.md R98): the RX_READ completes with the frame's fields, whatever the checksum and tail bytes are. -/
def Obligations.WireResponseCompletesRead : Prop :=
  ∀ (s : State) (c p0 p1 p2 p3 d0 d1 k t : Byte), s.resetInput = false → s.rx.state = .hunt → s.rxShape = .response →
    s.held = [] → exec (.wireResponse c p0 p1 p2 p3 d0 d1 k t) s = .next { s with
      rx := ⟨.idle, 10, overwriteFront s.rx.buf [0xAA, c, p0, p1, p2, p3, d0, d1, k, t]⟩
      busy := false
      err := 0
      results := s.results ++ [.ok (.message ⟨.response, c, [d0, d1], [p0, p1, p2, p3]⟩)] }

/-- The command rows to an RX_READ in HUNT with shape Command and nothing older in the Link (30_encoding.md R52 to R55;
42_frame_reader.md R98): the RX_READ completes with the row's payload and device id. -/
def Obligations.WireCommandsCompleteRead : Prop :=
  ∀ (s : State) (i : Instr) (c d0 d1 k : Byte) (p : Bytes), s.resetInput = false → s.rx.state = .hunt →
    s.rxShape = .command → s.held = [] →
    ((∃ t : Byte, p.length = 13 ∧ i = .wireCommand c p d0 d1 k t) ∨
      (i = .wireSwQuery d0 d1 k ∧ c = 0xB4 ∧ p = [0x06, 0x00, 0x00] ++ List.replicate 10 0x00) ∨
      (i = .wireSwSleep d0 d1 k ∧ c = 0xB4 ∧ p = [0x06, 0x01, 0x00] ++ List.replicate 10 0x00) ∨
      (i = .wireSwWake d0 d1 k ∧ c = 0xB4 ∧ p = [0x06, 0x01, 0x01] ++ List.replicate 10 0x00) ∨
      (i = .wireWpQuery d0 d1 k ∧ c = 0xB4 ∧ p = [0x08, 0x00, 0x00] ++ List.replicate 10 0x00) ∨
      (∃ n : Byte, i = .wireWpSet n d0 d1 k ∧ c = 0xB4 ∧ p = [0x08, 0x01, n] ++ List.replicate 10 0x00)) →
    ∃ t : State, exec i s = .next t ∧
      t = { s with
        rx := t.rx
        busy := false
        err := 0
        results := s.results ++ [.ok (.message ⟨.command, c, [d0, d1], p⟩)] } ∧
      t.rx.state = .idle ∧ t.rx.cnt = 19 ∧ t.rx.buf.toList = encode i

/-- A frame that arrives while no RX_READ is in flight, or while reset is asserted, waits in the Link behind what it holds, in
order, and changes nothing in the block (44_link_write.md R103, 10_state.md R31 (c)). -/
def Obligations.WireFramesWaitInLink : Prop :=
  ∀ (i : Instr) (s : State), i.isWire = true → s.rx.state = .idle ∨ s.resetInput = true →
    exec i s = .next { s with held := s.held ++ encode i }

/-- A wire row is a run of link events (notes/assumptions/5.md, a DESIGN CHOICE): its meaning is what the steps arrive, arrive,
…, offer, offer, … make of its bytes, one byte per step. -/
def Obligations.WireFrameIsRunOfLinkSteps : Prop :=
  ∀ (i : Instr) (s : State) (later : List Event), i.isWire = true → s.agenda = later →
    exec i s = runSteps ((encode i).length + (s.held.length + (encode i).length))
      { s with agenda := (encode i).map .arrive ++ List.replicate (s.held.length + (encode i).length) .offer ++ later }

/-- 70_reset_and_hazards.md R130, both ways of a shape mismatch: a reader of shape Command that meets 10-byte frames returns a
Command Message made of one frame and the first nine bytes of the next; a reader of shape Response that meets a 19-byte frame
returns its first ten bytes as a Response and leaves the other nine in the Link. No error is reported. That a frame row is one step, in which
the Link offers all it holds, is the model's choice (notes/assumptions/5.md, a DESIGN CHOICE). -/
def Obligations.ShapeMismatchMisreadsFrames : Prop :=
  (∀ (i j : Instr) (s : State), i.isWire = true → j.isWire = true → (encode i).length = 10 → (encode j).length = 10 →
    s.resetInput = false → s.rx.state = .hunt → s.rxShape = .command → s.held = [] →
    ∃ (t u : State) (m : Message), exec i s = .next t ∧ t.results = s.results ∧ t.rx.state = .collect ∧ exec j t = .next u ∧
      parse .command (encode i ++ (encode j).take 9) = .ok m ∧ u.results = s.results ++ [.ok (.message m)] ∧
      u.held = (encode j).drop 9 ∧ u.rx.state = .idle ∧ u.busy = false ∧ u.err = 0) ∧
  (∀ (i : Instr) (s : State), i.isWire = true → (encode i).length = 19 → s.resetInput = false → s.rx.state = .hunt →
    s.rxShape = .response → s.held = [] → ∃ (t : State) (m : Message), exec i s = .next t ∧
      parse .response ((encode i).take 10) = .ok m ∧ t.results = s.results ++ [.ok (.message m)] ∧
      t.held = (encode i).drop 10 ∧ t.rx.state = .idle ∧ t.busy = false ∧ t.err = 0)

/-! ### WRITE -/

/-- WRITE at issue (44_link_write.md R104). -/
def Obligations.WriteIssue : Prop :=
  ∀ (s : State) (m : Message), s.Ready → m.valid = true → ∃ t : State, exec (.write m) s = .next t ∧
    t = { s with tx := t.tx, busy := true } ∧ t.tx.state = .send ∧ t.tx.len.val = m.shape.messageLength ∧ t.tx.idx = 0 ∧
    t.tx.buf.toList = serialize m ++ s.tx.buf.toList.drop m.shape.messageLength

/-- TX step (44_link_write.md R105). -/
def Obligations.TxStep : Prop :=
  ∀ (s : State) (later : List Event) (h : s.tx.idx.val < 19), s.resetInput = false → s.tx.state = .send →
    s.agenda = .accept :: later →
    (s.tx.idx + 1 ≠ s.tx.len → step s = .next { s with
      agenda := later
      sent := s.sent ++ [s.tx.buf[s.tx.idx.val]]
      tx := { s.tx with idx := s.tx.idx + 1 } }) ∧
    (s.tx.idx + 1 = s.tx.len → step s = .next { s with
      agenda := later
      sent := s.sent ++ [s.tx.buf[s.tx.idx.val]]
      tx := { s.tx with idx := s.tx.idx + 1, state := .idle }
      busy := false
      err := 0
      results := s.results ++ [.ok (.count s.tx.len.val)] })

/-- A WRITE whose every byte the Link accepts sends exactly the serialized frame, index 0 first, and returns the frame length
(44_link_write.md R104, R105). -/
def Obligations.WriteSendsFrame : Prop :=
  ∀ (s : State) (m : Message) (later : List Event), s.Ready → m.valid = true →
    s.agenda = .request (encode (.write m)) :: List.replicate m.shape.messageLength .accept ++ later →
    ∃ t : State, runSteps (1 + m.shape.messageLength) s = .next t ∧
      t = { s with
        agenda := later
        tx := t.tx
        sent := s.sent ++ serialize m
        busy := false
        err := 0
        results := s.results ++ [.ok (.count m.shape.messageLength)] } ∧
      t.tx.state = .idle

/-- Link error during a WRITE (44_link_write.md R106): the bytes accepted stay sent. -/
def Obligations.TxLinkError : Prop :=
  ∀ (s : State) (later : List Event), s.resetInput = false → s.rx.state = .idle → s.tx.state = .send →
    s.agenda = .linkError :: later → step s = .next { s with
      agenda := later
      tx := { s.tx with state := .idle }
      busy := false
      err := 3
      results := s.results ++ [.err .transportError] }

/-! ### Registers, reset, and rules over every step -/

/-- The Host reads `CFG` and `STATUS` (10_state.md R25, R26; 70_reset_and_hazards.md R136): the register's value, and no effect
on the block. -/
def Obligations.HostReadsRegisters : Prop :=
  ∀ (s : State) (later : List Event),
    (s.agenda = .readCfg :: later → step s = .next { s with
      agenda := later
      reads := s.reads ++ [(.cfg, if s.rxShape = .command then 0x01 else 0x00)] }) ∧
    (s.agenda = .readStatus :: later → step s = .next { s with
      agenda := later
      reads := s.reads ++ [(.status, BitVec.ofNat 8
        ((match s.rx.state with | .idle => 0 | .hunt => 1 | .collect => 2) + (if s.tx.state = .send then 4 else 0) +
          (if s.busy then 8 else 0) + 16 * s.err.toNat))] })

/-- 30_encoding.md R67: `CFG[7:1]` and `STATUS[7]` read 0; `STATUS.RX_STATE` = 3 and `STATUS.ERR` = 4..7 never occur. -/
def Obligations.ReservedRegisterFields : Prop :=
  ∀ s : State, s.Inv → s.cfg.extractLsb' 1 7 = 0 ∧ s.status.extractLsb' 7 1 = 0 ∧ s.status.extractLsb' 0 2 ≠ 3 ∧
    s.status.extractLsb' 4 3 < 4

/-- 10_state.md R33: the reset value of every element the spec gives one. -/
def Obligations.ResetValues : Prop :=
  State.reset.rxShape = .response ∧ State.reset.cfg = 0x00 ∧
    State.reset.swb.buf.toList = 0x06 :: List.replicate 12 0x00 ∧ State.reset.swb.shape = .command ∧
    State.reset.wpb.buf.toList = 0x08 :: List.replicate 12 0x00 ∧ State.reset.wpb.shape = .command ∧
    State.reset.rx.state = .idle ∧ State.reset.tx.state = .idle ∧ State.reset.busy = false ∧ State.reset.err = 0 ∧
    State.reset.status = 0x00

/-- 70_reset_and_hazards.md R124, R125: asserting reset abandons a request in flight with no Result; the Link keeps what it held
but for the byte in transfer, what was sent stays sent; releasing reset leaves the values of R33. That the elements hold those
values already while reset is asserted is the model's choice (notes/assumptions/8.md, a DESIGN CHOICE). -/
def Obligations.ResetSetsEveryElement : Prop :=
  ∀ (s : State) (later : List Event),
    (∀ moved : Bool, s.resetInput = false → s.agenda = .assertReset moved :: later → ∃ t : State, step s = .next t ∧
      t.resetInput = true ∧ t.rxShape = .response ∧ t.swb = State.reset.swb ∧ t.wpb = State.reset.wpb ∧
      t.rx.state = .idle ∧ t.tx.state = .idle ∧ t.busy = false ∧ t.err = 0 ∧ t.results = s.results ∧ t.reads = s.reads ∧
      (moved = false → t.held = s.held ∧ t.sent = s.sent) ∧
      (moved = true → (s.rx.state = .idle → t.held = s.held) ∧ (s.rx.state ≠ .idle → t.held = s.held.drop 1) ∧
        (s.tx.state = .idle → t.sent = s.sent) ∧
        (s.tx.state = .send → ∀ h : s.tx.idx.val < 19, t.sent = s.sent ++ [s.tx.buf[s.tx.idx.val]]))) ∧
    (s.resetInput = true → s.agenda = .releaseReset :: later → ∃ t : State, step s = .next t ∧
      t.resetInput = false ∧ t.rxShape = .response ∧ t.swb = State.reset.swb ∧ t.wpb = State.reset.wpb ∧
      t.rx.state = .idle ∧ t.tx.state = .idle ∧ t.busy = false ∧ t.err = 0 ∧ t.results = s.results ∧ t.held = s.held ∧
      t.sent = s.sent)

/-- While reset is asserted the block takes no request and performs no link step (70_reset_and_hazards.md R124); that a request
issued then is refused and a link event then has no effect is the model's form of it (notes/assumptions/8.md, 12.md). -/
def Obligations.NothingMovesInReset : Prop :=
  ∀ (s : State) (later : List Event), s.resetInput = true →
    (∀ i : Instr, i.isWire = false → exec i s = .refused .inReset) ∧
    (∀ ev, ev = .offer ∨ ev = .accept ∨ ev = .linkError → s.agenda = ev :: later → step s = .next { s with agenda := later })

/-- 10_state.md R22, R23, 60_exceptions.md R115: a step either returns no Result, and then leaves `STATUS.ERR` unless it is a
reset, which leaves 0; or returns one Result, and then `STATUS.ERR` is its code and `BUSY` is 0. The spec gives 0 on the release of
reset (10_state.md R33, 70_reset_and_hazards.md R124); that its assertion leaves 0 already is the model's choice
(notes/assumptions/8.md, a DESIGN CHOICE). -/
def Obligations.StatusRecordsLastResult : Prop :=
  ∀ s t : State, step s = .next t →
    (t.results = s.results ∧ (t.err = s.err ∨ t.err = 0 ∧ ∃ later, s.agenda = .releaseReset :: later ∨
      ∃ moved, s.agenda = .assertReset moved :: later)) ∨
    ∃ r : Result, t.results = s.results ++ [r] ∧ t.err = r.code ∧ t.busy = false

/-- 10_state.md R18, R20, R25: the builders and `CFG.RX_SHAPE` are written only by their own requests and by reset. -/
def Obligations.OnlyTheirRequestsWriteBuilders : Prop :=
  ∀ s t : State, step s = .next t →
    (t.swb = s.swb ∧ t.wpb = s.wpb ∧ t.rxShape = s.rxShape) ∨
    (∃ later, s.agenda = .releaseReset :: later ∨ ∃ moved, s.agenda = .assertReset moved :: later) ∨
    (∃ bs later i, s.agenda = .request bs :: later ∧ decodeRequest bs = .ok i ∧
      ((t.wpb = s.wpb ∧ t.rxShape = s.rxShape ∧ (i = .swSleep ∨ i = .swWake ∨ ∃ sh, i = .swNew sh)) ∨
        (t.swb = s.swb ∧ t.rxShape = s.rxShape ∧ ((∃ n, i = .wpSet n) ∨ ∃ sh, i = .wpNew sh)) ∨
        (t.swb = s.swb ∧ t.wpb = s.wpb ∧ ∃ sh, i = .rxConfig sh)))

/-- 44_link_write.md R103, 20_memory.md R43: the block consumes held bytes only in HUNT or COLLECT and sends bytes only in SEND;
what was sent and what was returned is never taken back. A whole frame as one
move is the model's choice (notes/assumptions/5.md, a DESIGN CHOICE). -/
def Obligations.LinkBytesMoveOnlyInFlight : Prop :=
  ∀ s t : State, step s = .next t →
    (s.rx.state = .idle → ∃ arrived : Bytes, t.held = s.held ++ arrived ∧
      ((∃ b later, s.agenda = .arrive b :: later ∧ arrived = [b]) ∨
        (∃ bs later, s.agenda = .frame bs :: later ∧ arrived = bs) ∨ arrived = [])) ∧
    (s.tx.state = .idle → t.sent = s.sent) ∧
    s.sent <+: t.sent ∧ s.results <+: t.results

/-- The invariant holds at reset. -/
def Obligations.InvAtReset : Prop := State.reset.Inv

/-- Every step keeps the invariant: `BUSY` tells whether a request is in flight, only one is, the engines' counters stay inside
their frames (10_state.md R21), the builders hold only the payloads of R53 and R54 (R20), every Message returned is valid, no
request is in flight under reset (70_reset_and_hazards.md R124, R125). The clause that `STATUS.ERR` is 0 while reset is asserted
rests on the model's choice (notes/assumptions/8.md, a DESIGN CHOICE). -/
def Obligations.StepKeepsInv : Prop := ∀ s t : State, s.Inv → step s = .next t → t.Inv

/-- From a state the invariant allows no step faults: the engines never index outside their buffers (10_state.md R21, R32). -/
def Obligations.NoFaultUnderInv : Prop := ∀ (s : State) (r : Fault), s.Inv → step s ≠ .fault r

/-! ### The Host's side and the end of a run -/

/-- 30_encoding.md R69: the requests a pseudo-request stands for, and that a request of its expansion that fails ends the
expansion. -/
def Obligations.PseudoRequestsExpand : Prop :=
  (∀ (name : Option String) (dev : Bytes) (n : Int),
    (Text.Pseudo.sendSwQuery dev).expand name =
      [⟨none, .request (.swNew .command)⟩, ⟨some "t", .request (.swBuild dev)⟩, ⟨name, .write "t"⟩] ∧
    (Text.Pseudo.sendSleep dev).expand name = [⟨none, .request (.swNew .command)⟩, ⟨none, .request .swSleep⟩,
      ⟨some "t", .request (.swBuild dev)⟩, ⟨name, .write "t"⟩] ∧
    (Text.Pseudo.sendWake dev).expand name = [⟨none, .request (.swNew .command)⟩, ⟨none, .request .swWake⟩,
      ⟨some "t", .request (.swBuild dev)⟩, ⟨name, .write "t"⟩] ∧
    (Text.Pseudo.sendPeriodQuery dev).expand name =
      [⟨none, .request (.wpNew .command)⟩, ⟨some "t", .request (.wpBuild dev)⟩, ⟨name, .write "t"⟩] ∧
    (Text.Pseudo.sendPeriod n dev).expand name = [⟨none, .request (.wpNew .command)⟩, ⟨none, .request (.wpSet n)⟩,
      ⟨some "t", .request (.wpBuild dev)⟩, ⟨name, .write "t"⟩] ∧
    Text.Pseudo.readMeasurement.expand name =
      [⟨none, .request (.rxConfig .response)⟩, ⟨some "m", .request .rxRead⟩, ⟨name, .measDecode "m"⟩]) ∧
  (∀ (l : Text.Line) (ls : List Text.Line) (groups : List (List Text.Line)) (env : List (String × Value)) (e : ReqError)
    (v : Value),
    Text.Session.receive ⟨(l :: ls) :: groups, env⟩ (.err e) = ⟨groups, env⟩ ∧
    (Text.Session.receive ⟨(l :: ls) :: groups, env⟩ (.ok v)).groups = ls :: groups)

/-- 70_reset_and_hazards.md R137: the run from `s` is observed exactly when some step of it is the first to return a Result
with no request left to issue and `BUSY` = 0, and the observation is the Results, `CFG`, `STATUS`, the builders, the bytes sent
and the bytes the Link holds after that step. A run whose last request reset abandons (R125: no Result) is never observed. That a
run with no request, in flight or to come, is never observed either is the model's choice (notes/assumptions/23.md, a DESIGN
CHOICE). -/
def Obligations.RunEndsAfterLastResult : Prop :=
  (∀ (s : State) (n : Nat) (o : Observation), s.observe n = some o ↔
    ∃ (k : Nat) (t u : State), k < n ∧ runSteps k s = .next t ∧ step t = .next u ∧
      (∃ r : Result, u.results = t.results ++ [r]) ∧ (∀ bs, Event.request bs ∉ u.agenda) ∧ u.busy = false ∧
      o = ⟨u.results, u.cfg, u.status, u.swb, u.wpb, u.sent, u.held⟩ ∧
      ∀ (j : Nat) (v w : State) (r : Result), j < k → runSteps j s = .next v → step v = .next w →
        w.results = v.results ++ [r] → w.busy = true ∨ ∃ bs, Event.request bs ∈ w.agenda) ∧
  (∀ (s : State) (moved : Bool) (later : List Event), s.resetInput = false → s.agenda = .assertReset moved :: later →
    (∀ bs, Event.request bs ∉ later) → ∀ n, s.observe n = none) ∧
  (∀ s : State, s.rx.state = .idle → s.tx.state = .idle → (∀ bs, Event.request bs ∉ s.agenda) → ∀ n, s.observe n = none)
end

