-- ==== Sys2Proof/Laws/State.lean ====
section
/-! SUPPORT. Sys2Proof/Laws/State.lean: what each shared update of State does to each field, and when a request is taken. -/

namespace Sys2Proof

@[simp] theorem Shape.dataLength_response : Shape.response.dataLength = 4 := rfl
@[simp] theorem Shape.dataLength_command : Shape.command.dataLength = 13 := rfl
@[simp] theorem Shape.messageLength_response : Shape.response.messageLength = 10 := rfl
@[simp] theorem Shape.messageLength_command : Shape.command.messageLength = 19 := rfl

theorem Shape.messageLength_le (sh : Shape) : sh.messageLength ≤ 19 := by cases sh <;> simp
theorem Shape.messageLength_ge (sh : Shape) : 10 ≤ sh.messageLength := by cases sh <;> simp

/-- The two invariants of a Message (00_scope.md R14). -/
theorem Message.valid_iff (m : Message) :
    m.valid = true ↔ m.deviceId.length = 2 ∧ m.payload.length = m.shape.dataLength := by
  simp [Message.valid, Config.devidLen]

namespace Machine

section finish
variable (r : Result) (s : State)

@[simp] theorem finish_rxShape : (finish r s).rxShape = s.rxShape := rfl
@[simp] theorem finish_swb : (finish r s).swb = s.swb := rfl
@[simp] theorem finish_wpb : (finish r s).wpb = s.wpb := rfl
@[simp] theorem finish_rx : (finish r s).rx = s.rx := rfl
@[simp] theorem finish_tx : (finish r s).tx = s.tx := rfl
@[simp] theorem finish_busy : (finish r s).busy = s.busy := rfl
@[simp] theorem finish_err : (finish r s).err = r.code := rfl
@[simp] theorem finish_resetInput : (finish r s).resetInput = s.resetInput := rfl
@[simp] theorem finish_results : (finish r s).results = s.results ++ [r] := rfl
@[simp] theorem finish_reads : (finish r s).reads = s.reads := rfl
@[simp] theorem finish_held : (finish r s).held = s.held := rfl
@[simp] theorem finish_sent : (finish r s).sent = s.sent := rfl
@[simp] theorem finish_agenda : (finish r s).agenda = s.agenda := rfl
@[simp] theorem finish_draws : (finish r s).draws = s.draws := rfl

@[simp] theorem finishRx_rxShape : (finishRx r s).rxShape = s.rxShape := rfl
@[simp] theorem finishRx_swb : (finishRx r s).swb = s.swb := rfl
@[simp] theorem finishRx_wpb : (finishRx r s).wpb = s.wpb := rfl
@[simp] theorem finishRx_rx : (finishRx r s).rx = ⟨.idle, s.rx.cnt, s.rx.buf⟩ := rfl
@[simp] theorem finishRx_tx : (finishRx r s).tx = s.tx := rfl
@[simp] theorem finishRx_busy : (finishRx r s).busy = false := rfl
@[simp] theorem finishRx_err : (finishRx r s).err = r.code := rfl
@[simp] theorem finishRx_resetInput : (finishRx r s).resetInput = s.resetInput := rfl
@[simp] theorem finishRx_results : (finishRx r s).results = s.results ++ [r] := rfl
@[simp] theorem finishRx_reads : (finishRx r s).reads = s.reads := rfl
@[simp] theorem finishRx_held : (finishRx r s).held = s.held := rfl
@[simp] theorem finishRx_sent : (finishRx r s).sent = s.sent := rfl
@[simp] theorem finishRx_agenda : (finishRx r s).agenda = s.agenda := rfl
@[simp] theorem finishRx_draws : (finishRx r s).draws = s.draws := rfl

@[simp] theorem finishTx_rxShape : (finishTx r s).rxShape = s.rxShape := rfl
@[simp] theorem finishTx_swb : (finishTx r s).swb = s.swb := rfl
@[simp] theorem finishTx_wpb : (finishTx r s).wpb = s.wpb := rfl
@[simp] theorem finishTx_rx : (finishTx r s).rx = s.rx := rfl
@[simp] theorem finishTx_tx : (finishTx r s).tx = ⟨.idle, s.tx.buf, s.tx.len, s.tx.idx⟩ := rfl
@[simp] theorem finishTx_busy : (finishTx r s).busy = false := rfl
@[simp] theorem finishTx_err : (finishTx r s).err = r.code := rfl
@[simp] theorem finishTx_resetInput : (finishTx r s).resetInput = s.resetInput := rfl
@[simp] theorem finishTx_results : (finishTx r s).results = s.results ++ [r] := rfl
@[simp] theorem finishTx_reads : (finishTx r s).reads = s.reads := rfl
@[simp] theorem finishTx_held : (finishTx r s).held = s.held := rfl
@[simp] theorem finishTx_sent : (finishTx r s).sent = s.sent := rfl
@[simp] theorem finishTx_agenda : (finishTx r s).agenda = s.agenda := rfl
@[simp] theorem finishTx_draws : (finishTx r s).draws = s.draws := rfl
end finish

section reset
variable (s : State)

@[simp] theorem blockReset_rxShape : (blockReset s).rxShape = .response := rfl
@[simp] theorem blockReset_swb : (blockReset s).swb = Builder.fresh Config.subcmdSleepWake .command := rfl
@[simp] theorem blockReset_wpb : (blockReset s).wpb = Builder.fresh Config.subcmdWorkPeriod .command := rfl
@[simp] theorem blockReset_rx_state : (blockReset s).rx.state = .idle := rfl
@[simp] theorem blockReset_tx_state : (blockReset s).tx.state = .idle := rfl
@[simp] theorem blockReset_busy : (blockReset s).busy = false := rfl
@[simp] theorem blockReset_err : (blockReset s).err = 0 := rfl
@[simp] theorem blockReset_resetInput : (blockReset s).resetInput = s.resetInput := rfl
@[simp] theorem blockReset_results : (blockReset s).results = s.results := rfl
@[simp] theorem blockReset_reads : (blockReset s).reads = s.reads := rfl
@[simp] theorem blockReset_held : (blockReset s).held = s.held := rfl
@[simp] theorem blockReset_sent : (blockReset s).sent = s.sent := rfl
@[simp] theorem blockReset_agenda : (blockReset s).agenda = s.agenda := rfl
@[simp] theorem blockReset_draws : (blockReset s).draws = s.draws + 1 := rfl
end reset

section builder
variable (b : Builder) (flag value subcmd : Byte) (shape : Shape)

@[simp] theorem Builder.setMode_shape : (b.setMode flag value).shape = b.shape := rfl
@[simp] theorem Builder.setMode_buf : (b.setMode flag value).buf = (b.buf.set 1 flag).set 2 value := rfl
@[simp] theorem Builder.fresh_shape : (Builder.fresh subcmd shape).shape = shape := rfl
@[simp] theorem Builder.fresh_buf_toList :
    (Builder.fresh subcmd shape).buf.toList = subcmd :: List.replicate 12 0x00 := rfl
end builder

/-- A request is taken exactly in a Ready state, and then has its own effect. -/
theorem take_ready {s : State} (h : s.Ready) (effect : Out) : take s effect = effect := by
  simp [take, h.1, h.2]

/-- A request that answers a next state was taken. -/
theorem take_next {s t : State} {effect : Out} (h : take s effect = .next t) : s.Ready ∧ effect = .next t := by
  unfold take at h
  split at h
  · cases h
  · split at h
    · cases h
    · exact ⟨⟨by simp_all, by simp_all⟩, h⟩

/-- While `BUSY` = 1 a request is refused. -/
theorem take_busy {s : State} (hr : s.resetInput = false) (hb : s.busy = true) (effect : Out) :
    take s effect = .refused .busy := by
  simp [take, hr, hb]

/-- A format-HM request that answers a next state had a Message for its operand. -/
theorem needMessage_next {m : Message} {t : State} {effect : Out} (h : needMessage m effect = .next t) :
    m.valid = true ∧ effect = .next t := by
  unfold needMessage at h
  split at h
  · exact ⟨by assumption, h⟩
  · cases h

end Machine
end Sys2Proof
end

