-- ==== Sys2Proof/Laws/Codec.lean ====
section
/-! SUPPORT. Sys2Proof/Laws/Codec.lean: the codec's functions: sums, checked construction, serialization, parse, build. -/

namespace Sys2Proof.Machine

@[simp] theorem sumBytes_append (p q : Bytes) : sumBytes (p ++ q) = sumBytes p + sumBytes q := by
  induction p with
  | nil => simp [sumBytes]
  | cons b p ih => simp [sumBytes, ih]; omega

/-- The sum of R11 is the sum of the bytes' numbers. -/
theorem sumBytes_eq_sum (p : Bytes) : sumBytes p = (p.map BitVec.toNat).sum := by
  induction p with
  | nil => rfl
  | cons b p ih => simp [sumBytes, ih]

theorem sumBytes_le (p : Bytes) : sumBytes p ≤ 255 * p.length := by
  induction p with
  | nil => simp [sumBytes]
  | cons b p ih => simp only [sumBytes, List.length_cons]; have := b.isLt; omega

/-- Everything checked construction can answer (40_frame_codec.md R72). -/
theorem newMessage_cases (sh : Shape) (c : Byte) (d p : Bytes) :
    (p.length ≠ sh.dataLength ∧ newMessage sh c d p = .error (.invalidLength .payload p.length sh.dataLength)) ∨
    (p.length = sh.dataLength ∧ d.length ≠ 2 ∧ newMessage sh c d p = .error (.invalidLength .deviceId d.length 2)) ∨
    (p.length = sh.dataLength ∧ d.length = 2 ∧ newMessage sh c d p = .ok ⟨sh, c, d, p⟩) := by
  unfold newMessage Config.devidLen
  by_cases hp : p.length = sh.dataLength <;> by_cases hd : d.length = 2 <;> simp [hp, hd]

theorem newMessage_ok {sh : Shape} {c : Byte} {d p : Bytes} (hp : p.length = sh.dataLength) (hd : d.length = 2) :
    newMessage sh c d p = .ok ⟨sh, c, d, p⟩ := by
  simp [newMessage, Config.devidLen, hp, hd]

/-- Only Messages come out of checked construction. -/
theorem newMessage_valid {sh : Shape} {c : Byte} {d p : Bytes} {m : Message} (h : newMessage sh c d p = .ok m) :
    m.valid = true := by
  rcases newMessage_cases sh c d p with ⟨_, e⟩ | ⟨_, _, e⟩ | ⟨hp, hd, e⟩ <;> rw [e] at h
  · cases h
  · cases h
  · cases h; exact (Message.valid_iff _).2 ⟨hd, hp⟩

@[simp] theorem frameBytes_length (c : Byte) (p d : Bytes) (k t : Byte) :
    (frameBytes c p d k t).length = p.length + d.length + 4 := by
  simp [frameBytes]; omega

theorem serialize_length {m : Message} (h : m.valid = true) : (serialize m).length = m.shape.messageLength := by
  obtain ⟨hd, hp⟩ := (Message.valid_iff m).1 h
  simp [serialize, hd, hp, Shape.messageLength]

@[simp] theorem slice_length (bs : Bytes) (a b : Nat) : (slice bs a b).length = min (b - a) (bs.length - a) := by
  simp [slice]

/-- A frame of the right length is always parsed (42_frame_reader.md R89 (a)). -/
theorem parse_ok {sh : Shape} {buf : Bytes} (h : buf.length = sh.messageLength) :
    parse sh buf = .ok ⟨sh, buf.getD 1 0, slice buf (sh.messageLength - 4) (sh.messageLength - 2),
      slice buf 2 (2 + sh.dataLength)⟩ := by
  refine newMessage_ok ?_ ?_
  · simp [h, Shape.messageLength]
  · simp [h]; have := sh.messageLength_ge; omega

/-- `TX.len` of a Message is its frame length (44_link_write.md R104). -/
theorem txLen_val {m : Message} (h : m.valid = true) : (txLen m).val = m.shape.messageLength := by
  have := m.shape.messageLength_le
  simp [txLen, serialize_length h, Fin.ofNat]
  omega

/-- A set request over an earlier one is as if it came alone (41_command_builders.md R78). -/
theorem Builder.setMode_setMode (b : Builder) (f v g w : Byte) : (b.setMode f v).setMode g w = b.setMode g w := by
  rcases b with ⟨buf, sh⟩
  simp only [Builder.setMode, Builder.mk.injEq, and_true]
  apply Vector.ext
  intro i hi
  simp only [Vector.getElem_set]
  split <;> try rfl
  split <;> rfl

@[simp] theorem overwriteFront_toList (buf : Vector Byte 19) (f : Bytes) :
    (overwriteFront buf f).toList = (f ++ buf.toList.drop f.length).take 19 := rfl

/-- The front of the overwritten buffer is the frame. -/
theorem overwriteFront_front (buf : Vector Byte 19) {f : Bytes} (h : f.length ≤ 19) :
    (overwriteFront buf f).toList.take f.length = f := by
  simp [List.take_take, Nat.min_eq_left h]

end Sys2Proof.Machine
end

