-- ==== Sys2Proof/Laws/Decode.lean ====
section
/-! SUPPORT. Sys2Proof/Laws/Decode.lean: each operand field reads back what its encoder wrote (30_encoding.md R58), and what a
field read is what its encoder writes. -/

namespace Sys2Proof

open Machine

@[simp] theorem bytesLE_length (n w : Nat) : (bytesLE n w).length = n := by
  induction n generalizing w with
  | zero => rfl
  | succ n ih => simp [bytesLE, ih]

/-- Little-endian bytes read back. -/
theorem natLE_bytesLE (n w : Nat) : natLE (bytesLE n w) = w % 256 ^ n := by
  induction n generalizing w with
  | zero => simp [bytesLE, natLE, Nat.mod_one]
  | succ n ih =>
    simp only [bytesLE, natLE, ih, BitVec.toNat_ofNat]
    rw [show (256 : Nat) ^ (n + 1) = 256 * 256 ^ n from Nat.pow_succ', Nat.mod_mul]

/-- The number of some bytes has those little-endian bytes. -/
theorem bytesLE_natLE (bs : Bytes) : bytesLE bs.length (natLE bs) = bs := by
  induction bs with
  | nil => rfl
  | cons b bs ih =>
    have hb := b.isLt
    simp only [List.length_cons, bytesLE, natLE]
    rw [show (b.toNat + 256 * natLE bs) / 256 = natLE bs by omega, ih]
    congr 1
    apply BitVec.eq_of_toNat_eq
    simp
    omega

theorem natLE_lt (bs : Bytes) : natLE bs < 256 ^ bs.length := by
  induction bs with
  | nil => simp [natLE]
  | cons b bs ih => simp only [natLE, List.length_cons, Nat.pow_succ]; have := b.isLt; omega

/-- What a list's length byte can hold. -/
theorem listFits_iff (bs : Bytes) : listFits bs = true ↔ bs.length ≤ 255 := decide_eq_true_iff

/-- What an int field can hold. -/
theorem intFits_iff (n : Int) : intFits n = true ↔ -2147483648 ≤ n ∧ n < 2147483648 := by
  rw [intFits, Bool.and_eq_true]
  exact and_congr decide_eq_true_iff decide_eq_true_iff

/-- An integer of `ARG_W` bits reads back (30_encoding.md R63). -/
theorem intOfBytes_intBytes {n : Int} (h : intFits n = true) : intOfBytes (intBytes n) = n := by
  rw [intFits_iff] at h
  have hlt : (BitVec.ofInt 32 n).toNat < 256 ^ 4 := (BitVec.ofInt 32 n).isLt
  simp only [intOfBytes, intBytes, natLE_bytesLE, Config.argBytes]
  rw [Nat.mod_eq_of_lt hlt, BitVec.ofNat_toNat, BitVec.setWidth_eq, BitVec.toInt_ofInt]
  rw [Int.bmod_eq_of_le] <;> omega

namespace Decode

@[simp] theorem shapeField_toByte (sh : Shape) (rest : Bytes) : shapeField (sh.toByte :: rest) = .ok (sh, rest) := by
  cases sh <;> rfl

@[simp] theorem byteField_cons (b : Byte) (rest : Bytes) : byteField (b :: rest) = .ok (b, rest) := rfl

theorem bytesField_append {n : Nat} {bs : Bytes} (h : bs.length = n) (rest : Bytes) :
    bytesField n (bs ++ rest) = .ok (bs, rest) := by
  subst h
  simp [bytesField]

theorem listField_list {bs : Bytes} (h : listFits bs = true) (rest : Bytes) :
    listField (Encode.list bs ++ rest) = .ok (bs, rest) := by
  have h' := (listFits_iff bs).1 h
  have hn : (BitVec.ofNat 8 bs.length).toNat = bs.length := by simp; omega
  simp only [listField, Encode.list, List.cons_append, listFieldUpTo, hn, Config.maxOperandLen]
  rw [if_neg (by omega), bytesField_append rfl]

theorem intField_intBytes {n : Int} (h : intFits n = true) (rest : Bytes) :
    intField (intBytes n ++ rest) = .ok (n, rest) := by
  simp [intField, bytesField_append (show (intBytes n).length = Config.argBytes by simp [intBytes]),
    Except.bind, intOfBytes_intBytes h]

theorem messageField_message {m : Message} (hd : listFits m.deviceId = true) (hp : listFits m.payload = true)
    (rest : Bytes) : messageField (Encode.message m ++ rest) = .ok (m, rest) := by
  simp [messageField, Encode.message, Except.bind, listField_list hd, listField_list hp]

/-! What a field read is what its encoder writes: no bit of the field is dropped. -/

/-- A field read after another: both were read. -/
theorem bind_ok {α β : Type} {x : Except Reject α} {f : α → Except Reject β} {r : β} (h : x.bind f = .ok r) :
    ∃ a, x = .ok a ∧ f a = .ok r := by
  cases x with
  | error e => cases h
  | ok a => exact ⟨a, rfl, h⟩

theorem shapeField_ok {bs rest : Bytes} {sh : Shape} (h : shapeField bs = .ok (sh, rest)) : bs = sh.toByte :: rest := by
  rcases bs with _ | ⟨b, bs⟩
  · cases h
  · simp only [shapeField] at h
    by_cases h0 : b = 0x00
    · rw [if_pos h0] at h; cases h; rw [h0]; rfl
    · by_cases h1 : b = 0x01
      · rw [if_neg h0, if_pos h1] at h; cases h; rw [h1]; rfl
      · rw [if_neg h0, if_neg h1] at h; cases h

theorem byteField_ok {bs rest : Bytes} {b : Byte} (h : byteField bs = .ok (b, rest)) : bs = b :: rest := by
  cases bs <;> cases h
  rfl

theorem bytesField_ok {n : Nat} {bs rest l : Bytes} (h : bytesField n bs = .ok (l, rest)) :
    bs = l ++ rest ∧ l.length = n := by
  unfold bytesField at h
  split at h
  · cases h
  · cases h; simp; omega

theorem listField_ok {bs rest l : Bytes} (h : listField bs = .ok (l, rest)) : bs = Encode.list l ++ rest := by
  rcases bs with _ | ⟨b, bs⟩
  · cases h
  · simp only [listField, listFieldUpTo] at h
    split at h
    · cases h
    · obtain ⟨h1, h2⟩ := bytesField_ok h
      simp [Encode.list, h2, h1]

theorem messageField_ok {bs rest : Bytes} {m : Message} (h : messageField bs = .ok (m, rest)) :
    bs = Encode.message m ++ rest := by
  obtain ⟨⟨sh, b1⟩, e1, h⟩ := bind_ok h
  obtain ⟨⟨c, b2⟩, e2, h⟩ := bind_ok h
  obtain ⟨⟨d, b3⟩, e3, h⟩ := bind_ok h
  obtain ⟨⟨p, b4⟩, e4, h⟩ := bind_ok h
  cases h
  rw [shapeField_ok e1, byteField_ok e2, listField_ok e3, listField_ok e4]
  simp [Encode.message]

theorem intField_ok {bs rest : Bytes} {n : Int} (h : intField bs = .ok (n, rest)) : bs = intBytes n ++ rest := by
  obtain ⟨⟨l, b1⟩, e1, h⟩ := bind_ok h
  cases h
  obtain ⟨h1, h2⟩ := bytesField_ok e1
  have hl := natLE_lt l
  have hb := bytesLE_natLE l
  simp only [Config.argBytes] at h2
  rw [h2] at hl hb
  rw [h1, intBytes, intOfBytes, BitVec.ofInt_toInt, BitVec.toNat_ofNat,
    Nat.mod_eq_of_lt (by simpa [Config.argBytes] using hl)]
  simpa [Config.argBytes] using hb.symm

end Decode

/-- The lists of a Message fit the length byte. -/
theorem valid_listFits {m : Message} (h : m.valid = true) : listFits m.deviceId = true ∧ listFits m.payload = true := by
  obtain ⟨hd, hp⟩ := (Message.valid_iff m).1 h
  have : m.shape.dataLength ≤ 13 := by cases m.shape <;> simp
  constructor <;> rw [listFits_iff] <;> omega

end Sys2Proof
end

