-- ==== Sys2Proof/Laws/Link.lean ====
section
/-! SUPPORT. Sys2Proof/Laws/Link.lean: everything a link step can do, said once for each. -/

namespace Sys2Proof.Machine

/-- The collected frame of a state whose buffer is full to the frame length. -/
def collected (s : State) : Message :=
  let f := s.rx.buf.toList.take s.rxShape.messageLength
  ⟨s.rxShape, f.getD 1 0, slice f (s.rxShape.messageLength - 4) (s.rxShape.messageLength - 2),
    slice f 2 (2 + s.rxShape.dataLength)⟩

theorem collected_parse (s : State) :
    parse s.rxShape (s.rx.buf.toList.take s.rxShape.messageLength) = .ok (collected s) :=
  parse_ok (by simpa using s.rxShape.messageLength_le)

/-- An RX_READ always completes with a Message (42_frame_reader.md R89 (a), R95). -/
theorem completeRx_eq (s : State) : completeRx s = finishRx (.ok (.message (collected s))) s := by
  simp [completeRx, collected_parse, resultOf]

theorem collected_valid (s : State) : (collected s).valid = true := newMessage_valid (collected_parse s)

/-- The state after a byte was stored in COLLECT, before completion is looked at (42_frame_reader.md R94). -/
def stored (b : Byte) (s : State) (h : s.rx.cnt.val < 19) : State :=
  { s with rx := { s.rx with buf := s.rx.buf.set s.rx.cnt.val b, cnt := s.rx.cnt + 1 } }

theorem fin20_succ {k : Fin 20} (h : k.val < 19) : (k + 1).val = k.val + 1 := by
  simp [Fin.val_add]; omega

/-- Everything a COLLECT step can do. -/
theorem collectStep_cases (b : Byte) (s : State) :
    (∃ h : s.rx.cnt.val < 19, s.rx.cnt.val + 1 = s.rxShape.messageLength ∧
      collectStep b s = .next (finishRx (.ok (.message (collected (stored b s h)))) (stored b s h))) ∨
    (∃ h : s.rx.cnt.val < 19, s.rx.cnt.val + 1 ≠ s.rxShape.messageLength ∧ collectStep b s = .next (stored b s h)) ∨
    (19 ≤ s.rx.cnt.val ∧ collectStep b s = .fault .rxIndexOutOfRange) := by
  by_cases h : s.rx.cnt.val < 19
  · by_cases hl : s.rx.cnt.val + 1 = s.rxShape.messageLength
    · refine .inl ⟨h, hl, ?_⟩
      rw [← completeRx_eq]
      simp [collectStep, h, fin20_succ h, hl, stored]
    · refine .inr (.inl ⟨h, hl, ?_⟩)
      simp [collectStep, h, fin20_succ h, hl, stored]
  · exact .inr (.inr ⟨by omega, by simp [collectStep, h]⟩)

/-- Everything an offer can do. -/
theorem linkOffer_cases (s : State) :
    ((s.resetInput = true ∨ s.held = [] ∨ s.rx.state = .idle) ∧ linkOffer s = .next s) ∨
    (s.resetInput = false ∧ s.rx.state = .hunt ∧ ∃ b rest, s.held = b :: rest ∧
      linkOffer s = .next (huntStep b { s with held := rest })) ∨
    (s.resetInput = false ∧ s.rx.state = .collect ∧ ∃ b rest, s.held = b :: rest ∧
      linkOffer s = collectStep b { s with held := rest }) := by
  unfold linkOffer
  rcases hr : s.resetInput with _ | _
  · rcases hh : s.held with _ | ⟨b, rest⟩
    · simp
    · rcases hs : s.rx.state with _ | _ | _ <;> simp
  · simp

/-- Everything an acceptance can do (44_link_write.md R105). -/
theorem linkAccept_cases (s : State) :
    ((s.resetInput = true ∨ s.tx.state = .idle) ∧ linkAccept s = .next s) ∨
    (s.resetInput = false ∧ s.tx.state = .send ∧ ∃ h : s.tx.idx.val < 19, s.tx.idx + 1 = s.tx.len ∧
      linkAccept s = .next (finishTx (.ok (.count s.tx.len.val))
        { s with sent := s.sent ++ [s.tx.buf[s.tx.idx.val]], tx := { s.tx with idx := s.tx.idx + 1 } })) ∨
    (s.resetInput = false ∧ s.tx.state = .send ∧ ∃ h : s.tx.idx.val < 19, s.tx.idx + 1 ≠ s.tx.len ∧
      linkAccept s = .next
        { s with sent := s.sent ++ [s.tx.buf[s.tx.idx.val]], tx := { s.tx with idx := s.tx.idx + 1 } }) ∨
    (s.resetInput = false ∧ s.tx.state = .send ∧ 19 ≤ s.tx.idx.val ∧ linkAccept s = .fault .txIndexOutOfRange) := by
  unfold linkAccept
  rcases hr : s.resetInput with _ | _
  · rcases hs : s.tx.state with _ | _
    · simp
    · by_cases h : s.tx.idx.val < 19
      · by_cases hl : s.tx.idx + 1 = s.tx.len
        · exact .inr (.inl ⟨rfl, rfl, h, hl, by simp [h, hl]⟩)
        · exact .inr (.inr (.inl ⟨rfl, rfl, h, hl, by simp [h, hl]⟩))
      · exact .inr (.inr (.inr ⟨rfl, rfl, by omega, by simp [h]⟩))
  · simp

/-- The acceptance of the frame's last byte. -/
theorem linkAccept_last {s : State} (hr : s.resetInput = false) (hs : s.tx.state = .send) (h : s.tx.idx.val < 19)
    (hl : s.tx.idx.val + 1 = s.tx.len.val) :
    linkAccept s = .next (finishTx (.ok (.count s.tx.len.val))
      { s with sent := s.sent ++ [s.tx.buf[s.tx.idx.val]], tx := { s.tx with idx := s.tx.idx + 1 } }) := by
  have : s.tx.idx + 1 = s.tx.len := Fin.ext (by rw [fin20_succ h, hl])
  simp [linkAccept, hr, hs, h, this]

/-- The acceptance of a byte before the frame's last. -/
theorem linkAccept_more {s : State} (hr : s.resetInput = false) (hs : s.tx.state = .send) (h : s.tx.idx.val < 19)
    (hl : s.tx.idx.val + 1 ≠ s.tx.len.val) :
    linkAccept s = .next
      { s with sent := s.sent ++ [s.tx.buf[s.tx.idx.val]], tx := { s.tx with idx := s.tx.idx + 1 } } := by
  have : s.tx.idx + 1 ≠ s.tx.len := fun e => hl (by rw [← fin20_succ h, e])
  simp [linkAccept, hr, hs, h, this]

/-- Everything a transport error can do (42_frame_reader.md R96, 44_link_write.md R106). -/
theorem linkError_cases (s : State) :
    ((s.resetInput = true ∨ s.rx.state = .idle ∧ s.tx.state = .idle) ∧ linkError s = s) ∨
    (s.resetInput = false ∧ s.rx.state ≠ .idle ∧ linkError s = finishRx (.err .transportError) s) ∨
    (s.resetInput = false ∧ s.rx.state = .idle ∧ s.tx.state = .send ∧
      linkError s = finishTx (.err .transportError) s) := by
  unfold linkError
  rcases s.resetInput with _ | _
  · by_cases hx : s.rx.state = .idle
    · cases ht : s.tx.state <;> simp [hx]
    · simp [hx]
  · simp

/-- Everything the assertion of reset can do (70_reset_and_hazards.md R125). -/
theorem assertReset_cases (moved : Bool) (s : State) :
    (s.resetInput = true ∧ assertReset moved s = s) ∨
    (s.resetInput = false ∧ moved = false ∧ assertReset moved s = { blockReset s with resetInput := true }) ∨
    (s.resetInput = false ∧ moved = true ∧
      assertReset moved s = { blockReset (byteInTransfer s) with resetInput := true }) := by
  unfold assertReset
  cases s.resetInput <;> cases moved <;> simp

/-- Everything the release of reset can do (70_reset_and_hazards.md R124). -/
theorem releaseReset_cases (s : State) :
    (s.resetInput = false ∧ releaseReset s = s) ∨
    (s.resetInput = true ∧ releaseReset s = { blockReset s with resetInput := false }) := by
  unfold releaseReset
  cases s.resetInput <;> simp

/-- Offers change nothing while no RX_READ is in flight: the bytes wait in the Link (44_link_write.md R103). -/
theorem linkOffers_idle {s : State} (h : s.rx.state = .idle) (n : Nat) : linkOffers n s = .next s := by
  induction n with
  | zero => rfl
  | succ n ih =>
    rcases linkOffer_cases s with ⟨_, e⟩ | ⟨_, e, _⟩ | ⟨_, e, _⟩
    · simp [linkOffers, e, ih]
    · simp [h] at e
    · simp [h] at e

/-- A run of offers cut in two. -/
theorem linkOffers_add {m n : Nat} {s t : State} (h : linkOffers m s = .next t) :
    linkOffers (m + n) s = linkOffers n t := by
  induction m generalizing s with
  | zero => cases h; simp
  | succ m ih =>
    rw [Nat.succ_add]
    simp only [linkOffers] at h ⊢
    split at h
    · exact ih h
    · cases h
    · cases h

/-- A property every offer keeps is kept by a run of offers. -/
theorem linkOffers_keeps {P : State → Prop} (step : ∀ s t, P s → linkOffer s = .next t → P t) {n : Nat} {s t : State}
    (hs : P s) (h : linkOffers n s = .next t) : P t := by
  induction n generalizing s with
  | zero => cases h; exact hs
  | succ n ih =>
    simp only [linkOffers] at h
    split at h
    · exact ih (step _ _ hs (by assumption)) h
    · cases h
    · cases h

/-- What no offer writes. -/
theorem linkOffers_frame {n : Nat} {s t : State} (h : linkOffers n s = .next t) :
    t.rxShape = s.rxShape ∧ t.swb = s.swb ∧ t.wpb = s.wpb ∧ t.tx = s.tx ∧ t.sent = s.sent ∧ t.reads = s.reads ∧
      t.resetInput = s.resetInput ∧ t.agenda = s.agenda ∧ t.draws = s.draws := by
  refine linkOffers_keeps (P := fun u => u.rxShape = s.rxShape ∧ u.swb = s.swb ∧ u.wpb = s.wpb ∧ u.tx = s.tx ∧
    u.sent = s.sent ∧ u.reads = s.reads ∧ u.resetInput = s.resetInput ∧ u.agenda = s.agenda ∧ u.draws = s.draws) ?_
    ⟨rfl, rfl, rfl, rfl, rfl, rfl, rfl, rfl, rfl⟩ h
  intro a b ha hb
  rcases linkOffer_cases a with ⟨_, e⟩ | ⟨_, _, x, rest, _, e⟩ | ⟨_, _, x, rest, _, e⟩ <;> rw [e] at hb
  · cases hb; exact ha
  · cases hb; unfold huntStep; split <;> exact ha
  · rcases collectStep_cases x { a with held := rest } with ⟨_, _, e⟩ | ⟨_, _, e⟩ | ⟨_, e⟩ <;> rw [e] at hb <;>
      cases hb <;> exact ha

/-- A run of offers returns at most one Result. -/
theorem linkOffers_results {n : Nat} {s t : State} (h : linkOffers n s = .next t) :
    (t.results = s.results ∧ t.err = s.err ∧ t.busy = s.busy) ∨
    ∃ r : Result, t.results = s.results ++ [r] ∧ t.err = r.code ∧ t.busy = false ∧ t.rx.state = .idle := by
  induction n generalizing s with
  | zero => cases h; exact .inl ⟨rfl, rfl, rfl⟩
  | succ n ih =>
    rcases linkOffer_cases s with ⟨_, e⟩ | ⟨_, _, x, rest, _, e⟩ | ⟨_, _, x, rest, _, e⟩ <;>
      simp only [linkOffers, e] at h
    · exact ih h
    · have := ih h
      unfold huntStep at this
      split at this <;> exact this
    · rcases collectStep_cases x { s with held := rest } with ⟨_, _, e⟩ | ⟨_, _, e⟩ | ⟨_, e⟩ <;>
        simp only [e] at h
      · rw [linkOffers_idle rfl] at h
        cases h
        exact .inr ⟨_, rfl, rfl, rfl, rfl⟩
      · have := ih h
        exact this
      · cases h

/-- HUNT discards a run of bytes other than 0xAA (42_frame_reader.md R93). -/
theorem linkOffers_hunt {s : State} {g rest : Bytes} (hr : s.resetInput = false) (hs : s.rx.state = .hunt)
    (hh : s.held = g ++ rest) (hg : ∀ b ∈ g, b ≠ Config.head) : linkOffers g.length s = .next { s with held := rest } := by
  induction g generalizing s with
  | nil => simp at hh; simp [linkOffers, ← hh]
  | cons b g ih =>
    have e : linkOffer s = .next { s with held := g ++ rest } := by
      simp only [linkOffer, hr, hh, hs, List.cons_append, huntStep]
      rw [if_neg (hg b (by simp))]
      rfl
    simp only [List.length_cons, linkOffers, e]
    exact ih (s := { s with held := g ++ rest }) hr hs rfl fun b hb => hg b (by simp [hb])

/-- COLLECT stores a run of bytes that ends before the frame does (42_frame_reader.md R94). -/
theorem linkOffers_collect {s : State} {r rest : Bytes} (hr : s.resetInput = false) (hs : s.rx.state = .collect)
    (hh : s.held = r ++ rest) (hc : s.rx.cnt.val + r.length < s.rxShape.messageLength) :
    ∃ t : State, linkOffers r.length s = .next t ∧ t = { s with held := rest, rx := t.rx } ∧ t.rx.state = .collect ∧
      t.rx.cnt.val = s.rx.cnt.val + r.length ∧
      t.rx.buf.toList = s.rx.buf.toList.take s.rx.cnt.val ++ r ++ s.rx.buf.toList.drop (s.rx.cnt.val + r.length) := by
  induction r generalizing s with
  | nil => simp at hh; exact ⟨s, rfl, by simp [← hh], hs, rfl, by simp⟩
  | cons b r ih =>
    have hL := s.rxShape.messageLength_le
    simp only [List.length_cons] at hc
    have hlt : s.rx.cnt.val < 19 := by omega
    have e : linkOffer s = .next (stored b { s with held := r ++ rest } hlt) := by
      rcases collectStep_cases b { s with held := r ++ rest } with ⟨_, k, _⟩ | ⟨_, _, e⟩ | ⟨k, _⟩
      · dsimp only at k; omega
      · rw [← e]; simp [linkOffer, hr, hs, hh]
      · dsimp only at k; omega
    obtain ⟨t, e1, e2, e3, e4, e5⟩ := ih (s := stored b { s with held := r ++ rest } hlt) hr hs rfl
      (by simp only [stored, fin20_succ hlt]; omega)
    simp only [stored, fin20_succ hlt] at e4 e5
    refine ⟨t, by simp only [List.length_cons, linkOffers, e]; exact e1, by rw [e2]; rfl, e3, ?_, ?_⟩
    · rw [e4]; simp; omega
    · have hl : (s.rx.buf.toList.take s.rx.cnt.val).length = s.rx.cnt.val := by simp; omega
      have front : (s.rx.buf.toList.take s.rx.cnt.val ++ b :: s.rx.buf.toList.drop (s.rx.cnt.val + 1)).take
          (s.rx.cnt.val + 1) = s.rx.buf.toList.take s.rx.cnt.val ++ [b] := by
        rw [List.take_append, hl, List.take_of_length_le (by rw [hl]; omega)]
        simp
      have back : (s.rx.buf.toList.take s.rx.cnt.val ++ b :: s.rx.buf.toList.drop (s.rx.cnt.val + 1)).drop
          (s.rx.cnt.val + 1 + r.length) = s.rx.buf.toList.drop (s.rx.cnt.val + (r.length + 1)) := by
        rw [List.drop_append, hl, List.drop_eq_nil_of_le (by rw [hl]; omega),
          show s.rx.cnt.val + 1 + r.length - s.rx.cnt.val = r.length + 1 by omega]
        simp only [List.nil_append, List.drop_succ_cons, List.drop_drop]
        congr 1
        omega
      rw [e5, Vector.toList_set, List.set_eq_take_append_cons_drop, if_pos (by simpa using hlt), front, back]
      simp

end Sys2Proof.Machine
end

