-- ==== Sys2Proof/Laws/PerInstr.lean ====
section
/-! SUPPORT. Sys2Proof/Laws/PerInstr.lean: FirstByte: the first byte of an instruction's encoding tells its port, since 0xAA is
the head of every frame (30_encoding.md R50) and no opcode (R61). -/

namespace Sys2Proof.Laws.FirstByte

/-- The encoding starts with 0xAA exactly when the instruction is a frame of the link port. -/
def Statement (i : Instr) : Prop := (encode i).head? = some Config.head ↔ i.isWire = true

theorem msgNew (sh : Shape) (c : Byte) (d p : Bytes) : Statement (.msgNew sh c d p) := by
  simp [Statement, encode, Instr.isWire, Config.head]
theorem checksum (p d : Bytes) : Statement (.checksum p d) := by
  simp [Statement, encode, Instr.isWire, Config.head]
theorem serialize (m : Message) : Statement (.serialize m) := by
  simp [Statement, encode, Instr.isWire, Config.head]
theorem frameParse (sh : Shape) (f : Bytes) : Statement (.frameParse sh f) := by
  simp [Statement, encode, Instr.isWire, Config.head]
theorem rxConfig (sh : Shape) : Statement (.rxConfig sh) := by
  simp [Statement, encode, Instr.isWire, Config.head]
theorem rxRead : Statement .rxRead := by
  simp [Statement, encode, Instr.isWire, Config.head]
theorem measDecode (m : Message) : Statement (.measDecode m) := by
  simp [Statement, encode, Instr.isWire, Config.head]
theorem write (m : Message) : Statement (.write m) := by
  simp [Statement, encode, Instr.isWire, Config.head]
theorem swNew (sh : Shape) : Statement (.swNew sh) := by
  simp [Statement, encode, Instr.isWire, Config.head]
theorem swSleep : Statement .swSleep := by
  simp [Statement, encode, Instr.isWire, Config.head]
theorem swWake : Statement .swWake := by
  simp [Statement, encode, Instr.isWire, Config.head]
theorem swBuild (d : Bytes) : Statement (.swBuild d) := by
  simp [Statement, encode, Instr.isWire, Config.head]
theorem wpNew (sh : Shape) : Statement (.wpNew sh) := by
  simp [Statement, encode, Instr.isWire, Config.head]
theorem wpSet (n : Int) : Statement (.wpSet n) := by
  simp [Statement, encode, Instr.isWire, Config.head]
theorem wpBuild (d : Bytes) : Statement (.wpBuild d) := by
  simp [Statement, encode, Instr.isWire, Config.head]
theorem wireResponse (c a b e f d0 d1 k t : Byte) : Statement (.wireResponse c a b e f d0 d1 k t) := by
  simp [Statement, encode, Instr.isWire, Machine.frameBytes]
theorem wireCommand (c : Byte) (p : Bytes) (d0 d1 k t : Byte) : Statement (.wireCommand c p d0 d1 k t) := by
  simp [Statement, encode, Instr.isWire, Machine.frameBytes]
theorem wireSwQuery (d0 d1 k : Byte) : Statement (.wireSwQuery d0 d1 k) := by
  simp [Statement, encode, Instr.isWire, Machine.frameBytes]
theorem wireSwSleep (d0 d1 k : Byte) : Statement (.wireSwSleep d0 d1 k) := by
  simp [Statement, encode, Instr.isWire, Machine.frameBytes]
theorem wireSwWake (d0 d1 k : Byte) : Statement (.wireSwWake d0 d1 k) := by
  simp [Statement, encode, Instr.isWire, Machine.frameBytes]
theorem wireWpQuery (d0 d1 k : Byte) : Statement (.wireWpQuery d0 d1 k) := by
  simp [Statement, encode, Instr.isWire, Machine.frameBytes]
theorem wireWpSet (n d0 d1 k : Byte) : Statement (.wireWpSet n d0 d1 k) := by
  simp [Statement, encode, Instr.isWire, Machine.frameBytes]

end Sys2Proof.Laws.FirstByte
end

