-- ==== Sys2Proof/Laws/Step.lean ====
section
/-! SUPPORT. Sys2Proof/Laws/Step.lean: step by the head of the agenda, and exec of a wire frame as one burst. -/

namespace Sys2Proof.Machine

@[simp] theorem step_nil {s : State} (h : s.agenda = []) : step s = .next s := by simp [step, h]

@[simp] theorem step_cons {s : State} {ev : Event} {rest : List Event} (h : s.agenda = ev :: rest) :
    step s = stepEvent ev { s with agenda := rest } := by simp [step, h]

/-- A wire frame is the burst of its bytes. -/
theorem exec_wire {i : Instr} (h : i.isWire = true) (s : State) : exec i s = linkBurst (encode i) s := by
  cases i <;> first | rfl | simp [Instr.isWire] at h

/-- Every host request is refused unless the block is Ready (30_encoding.md R66). -/
theorem exec_host_next {i : Instr} (h : i.isWire = false) {s t : State} (e : exec i s = .next t) : s.Ready := by
  cases i <;> first | exact (take_next e).1 | simp [Instr.isWire] at h

/-- No request writes the agenda, the register reads, the held bytes, the sent bytes or the reset input. -/
theorem exec_host_environment {i : Instr} (h : i.isWire = false) {s t : State} (e : exec i s = .next t) :
    t.agenda = s.agenda ∧ t.reads = s.reads ∧ t.held = s.held ∧ t.sent = s.sent ∧ t.resetInput = s.resetInput ∧
      t.draws = s.draws := by
  cases i
  case wpSet n =>
    have := (take_next e).2
    split at this <;> cases this <;> exact ⟨rfl, rfl, rfl, rfl, rfl, rfl⟩
  case serialize m => have := (needMessage_next (take_next e).2).2; cases this; exact ⟨rfl, rfl, rfl, rfl, rfl, rfl⟩
  case measDecode m => have := (needMessage_next (take_next e).2).2; cases this; exact ⟨rfl, rfl, rfl, rfl, rfl, rfl⟩
  case write m => have := (needMessage_next (take_next e).2).2; cases this; exact ⟨rfl, rfl, rfl, rfl, rfl, rfl⟩
  all_goals first
    | (have := (take_next e).2; cases this; exact ⟨rfl, rfl, rfl, rfl, rfl, rfl⟩)
    | simp [Instr.isWire] at h

/-- Everything a host request that answers a next state can do: end with a Result, having written at most the builders and
`CFG`; start an RX_READ; start a WRITE. -/
theorem exec_host_cases {i : Instr} (h : i.isWire = false) {s t : State} (e : exec i s = .next t) :
    (∃ r : Result, r.messageValid = true ∧
      t = { s with rxShape := t.rxShape, swb := t.swb, wpb := t.wpb, err := r.code, results := s.results ++ [r] }) ∨
    (i = .rxRead ∧ t = { s with busy := true, rx := { s.rx with state := .hunt } }) ∨
    (∃ m, i = .write m ∧ m.valid = true ∧
      t = { s with tx := ⟨.send, overwriteFront s.tx.buf (serialize m), txLen m, 0⟩, busy := true }) := by
  have valid : ∀ sh c d p, (resultOf .message (newMessage sh c d p)).messageValid = true := by
    intro sh c d p
    cases h : newMessage sh c d p with
    | error e => rfl
    | ok m => exact newMessage_valid h
  cases i <;> try (simp [Instr.isWire] at h; done)
  case rxRead => have := (take_next e).2; cases this; exact .inr (.inl ⟨rfl, rfl⟩)
  case write m =>
    obtain ⟨hv, e⟩ := needMessage_next (take_next e).2
    cases e
    exact .inr (.inr ⟨m, rfl, hv, rfl⟩)
  case wpSet n =>
    have := (take_next e).2
    split at this <;> cases this <;> exact .inl ⟨_, rfl, rfl⟩
  case measDecode m =>
    obtain ⟨_, e⟩ := needMessage_next (take_next e).2
    cases e
    refine .inl ⟨_, ?_, rfl⟩
    cases readingOf m <;> rfl
  case serialize m =>
    obtain ⟨_, e⟩ := needMessage_next (take_next e).2
    cases e
    exact .inl ⟨_, rfl, rfl⟩
  case frameParse sh f =>
    have := (take_next e).2
    cases this
    refine .inl ⟨_, ?_, rfl⟩
    split
    · rfl
    · exact valid _ _ _ _
  all_goals
    have := (take_next e).2
    cases this
    first | exact .inl ⟨_, rfl, rfl⟩ | exact .inl ⟨_, valid _ _ _ _, rfl⟩

/-! Runs of link steps. -/

/-- An outcome with another agenda. -/
def withAgenda (a : List Event) : Out → Out
  | .next t => .next { t with agenda := a }
  | .fault r => .fault r
  | .refused r => .refused r

/-- No offer looks at the agenda. -/
theorem linkOffer_agenda (a : List Event) (s : State) :
    linkOffer { s with agenda := a } = withAgenda a (linkOffer s) := by
  rcases s with ⟨sh, _, _, ⟨rs, cnt, buf⟩, _, _, _, ri, _, _, held, _, _, _⟩
  cases ri <;> cases held <;> cases rs <;> try rfl
  · simp only [linkOffer, huntStep]
    split <;> try rfl
    split <;> rfl
  · simp only [linkOffer, collectStep]
    split <;> try rfl
    split <;> try rfl
    split <;> rfl

theorem linkOffers_agenda (a : List Event) (n : Nat) (s : State) :
    linkOffers n { s with agenda := a } = withAgenda a (linkOffers n s) := by
  induction n generalizing s with
  | zero => rfl
  | succ n ih =>
    simp only [linkOffers, linkOffer_agenda]
    cases h : linkOffer s with
    | next t => exact ih t
    | fault r => rfl
    | refused r => rfl

/-- A run of offer moves is a run of offers. -/
theorem runSteps_offers (n : Nat) (later : List Event) (s : State) :
    runSteps n { s with agenda := List.replicate n .offer ++ later } = withAgenda later (linkOffers n s) := by
  induction n generalizing s with
  | zero => rfl
  | succ n ih =>
    have : step { s with agenda := List.replicate (n + 1) .offer ++ later } =
        withAgenda (List.replicate n .offer ++ later) (linkOffer s) := by
      rw [← linkOffer_agenda]; rfl
    simp only [runSteps, this, linkOffers]
    cases h : linkOffer s with
    | next t => exact ih t
    | fault r => rfl
    | refused r => rfl

/-- A run of arrivals leaves the bytes behind those the Link holds. -/
theorem runSteps_arrivals (bs : Bytes) (evs : List Event) (k : Nat) (s : State) :
    runSteps (bs.length + k) { s with agenda := bs.map .arrive ++ evs } =
      runSteps k { s with held := s.held ++ bs, agenda := evs } := by
  induction bs generalizing s with
  | nil => simp
  | cons b bs ih =>
    have : step { s with agenda := (b :: bs).map .arrive ++ evs } =
        .next { linkArrive b s with agenda := bs.map .arrive ++ evs } := rfl
    rw [List.length_cons, Nat.add_right_comm]
    simp only [runSteps, this]
    rw [ih (linkArrive b s)]
    simp [linkArrive]

/-! The end of a run. -/

theorem requestsLeft_eq_false {s : State} : s.requestsLeft = false ↔ ∀ bs, Event.request bs ∉ s.agenda := by
  unfold State.requestsLeft
  rw [List.any_eq_false]
  refine ⟨fun h bs hb => h _ hb rfl, fun h ev hev => ?_⟩
  cases ev <;> simp
  exact h _ hev

@[simp] theorem observe_zero (s : State) : s.observe 0 = none := rfl

/-- The observation looks at one step, then at the rest of the run. -/
theorem observe_next {s t : State} (h : step s = .next t) (n : Nat) :
    s.observe (n + 1) = if runEnds s t then some t.observation else t.observe n := by
  simp only [State.observe, h]

/-- A step without a Result ends no run. -/
theorem runEnds_of_results_eq {s t : State} (h : t.results = s.results) : runEnds s t = false := by simp [runEnds, h]

end Sys2Proof.Machine
end

