-- ==== Sys2Proof/Tests/Slice0.lean ====
section
/-! SUPPORT. Sys2Proof/Tests/Slice0.lean: tests against the vectors of 95_test_vectors.md (their ids in the comments; expected
values are the spec's), and for each obligation with hypotheses a witness that meets them. -/

namespace Sys2Proof.Tests

set_option Elab.async false

open Sys2Proof Sys2Proof.Machine

/-! ### Well-formedness: each check refuses an ill-formed term -/

theorem test_wf_msgNew_long_dev : (Instr.msgNew .response 0x5A (List.replicate 256 0) []).wf = false := by decide +kernel
theorem test_wf_msgNew_long_payload : (Instr.msgNew .response 0x5A [] (List.replicate 256 0)).wf = false := by decide +kernel
theorem test_wf_checksum_long_payload : (Instr.checksum (List.replicate 256 0) []).wf = false := by decide +kernel
theorem test_wf_checksum_long_dev : (Instr.checksum [] (List.replicate 256 0)).wf = false := by decide +kernel
theorem test_wf_serialize_no_message : (Instr.serialize ⟨.response, 0x5A, [0xA2, 0xD5], [1, 2, 3]⟩).wf = false := by decide
theorem test_wf_measDecode_no_message : (Instr.measDecode ⟨.response, 0x5A, [0xA2], [1, 2, 3, 4]⟩).wf = false := by decide
theorem test_wf_write_no_message : (Instr.write ⟨.command, 0x5A, [0xA2, 0xD5], [1, 2, 3, 4]⟩).wf = false := by decide
theorem test_wf_frameParse_long : (Instr.frameParse .response (List.replicate 256 0)).wf = false := by decide +kernel
theorem test_wf_swBuild_long : (Instr.swBuild (List.replicate 256 0)).wf = false := by decide +kernel
theorem test_wf_wpBuild_long : (Instr.wpBuild (List.replicate 256 0)).wf = false := by decide +kernel
theorem test_wf_wpSet_above : (Instr.wpSet 2147483648).wf = false := by decide
theorem test_wf_wpSet_below : (Instr.wpSet (-2147483649)).wf = false := by decide
theorem test_wf_wireCommand_short : (Instr.wireCommand 0xB4 [1, 2, 3, 4] 0xA2 0xD5 0x00 0xAB).wf = false := by decide
/-- The sleep frame of R53 is WIRE_SW_SLEEP, not WIRE_COMMAND. -/
theorem test_wf_wireCommand_builder_frame :
    (Instr.wireCommand 0xB4 (0x06 :: 0x01 :: List.replicate 11 0) 0xA2 0xD5 0x7E 0xAB).wf = false := by decide
theorem test_wf_accepts : (Instr.msgNew .response 0x5A (List.replicate 255 0) []).wf = true ∧
    (Instr.wpSet 2147483647).wf = true ∧ (Instr.wpSet (-2147483648)).wf = true ∧
    (Instr.wireCommand 0xFF (List.replicate 13 0xFF) 0xFF 0xFF 0xF1 0xAB).wf = true := by decide +kernel

/-! ### Decoding: the spec's words -/

/-- N10. -/
theorem test_decode_msgNew : decode [0x01, 0x01, 0xB4, 0x02, 0xA2, 0xD5, 0x0D, 6, 1, 1, 0, 0, 0, 0, 0, 0, 0, 0, 0, 0] =
    .ok (.msgNew .command 0xB4 [0xA2, 0xD5] [6, 1, 1, 0, 0, 0, 0, 0, 0, 0, 0, 0, 0]) := by decide
/-- K2. -/
theorem test_decode_checksum : decode [0x02, 0x0D, 6, 1, 0, 0, 0, 0, 0, 0, 0, 0, 0, 0, 0, 0x02, 0xA2, 0xD5] =
    .ok (.checksum [6, 1, 0, 0, 0, 0, 0, 0, 0, 0, 0, 0, 0] [0xA2, 0xD5]) := by decide
/-- S1. -/
theorem test_decode_serialize : decode [0x03, 0x00, 0x5A, 0x02, 0xA2, 0xD5, 0x04, 0xD4, 0x04, 0x3A, 0x0A] =
    .ok (.serialize ⟨.response, 0x5A, [0xA2, 0xD5], [0xD4, 0x04, 0x3A, 0x0A]⟩) := by decide
/-- F1. -/
theorem test_decode_frameParse :
    decode [0x04, 0x00, 0x0A, 0xAA, 0x5A, 0xD4, 0x04, 0x3A, 0x0A, 0xA2, 0xD5, 0x93, 0xAB] =
      .ok (.frameParse .response [0xAA, 0x5A, 0xD4, 0x04, 0x3A, 0x0A, 0xA2, 0xD5, 0x93, 0xAB]) := by decide
/-- X1, X2. -/
theorem test_decode_rxConfig : decode [0x05, 0x01] = .ok (.rxConfig .command) ∧
    decode [0x05, 0x00] = .ok (.rxConfig .response) := by decide
theorem test_decode_rxRead : decode [0x06] = .ok .rxRead := by decide
/-- M1. -/
theorem test_decode_measDecode : decode [0x07, 0x00, 0x5A, 0x02, 0xA2, 0xD5, 0x04, 0xD4, 0x04, 0x3A, 0x0A] =
    .ok (.measDecode ⟨.response, 0x5A, [0xA2, 0xD5], [0xD4, 0x04, 0x3A, 0x0A]⟩) := by decide
/-- P6, line 2. -/
theorem test_decode_write : decode [0x08, 0x00, 0xC5, 0x02, 0x12, 0x34, 0x04, 0x01, 0x02, 0x03, 0x04] =
    .ok (.write ⟨.response, 0xC5, [0x12, 0x34], [1, 2, 3, 4]⟩) := by decide
/-- P1, P5. -/
theorem test_decode_swNew : decode [0x10, 0x01] = .ok (.swNew .command) ∧ decode [0x10, 0x00] = .ok (.swNew .response) := by
  decide
theorem test_decode_swSleep : decode [0x11] = .ok .swSleep := by decide
theorem test_decode_swWake : decode [0x12] = .ok .swWake := by decide
/-- B18, B19. -/
theorem test_decode_swBuild : decode [0x13, 0x03, 0xA2, 0xD5, 0x00] = .ok (.swBuild [0xA2, 0xD5, 0x00]) ∧
    decode [0x13, 0x00] = .ok (.swBuild []) := by decide
/-- P3, line 1. -/
theorem test_decode_wpNew : decode [0x18, 0x01] = .ok (.wpNew .command) := by decide
/-- B12 to B15. -/
theorem test_decode_wpSet : decode [0x19, 0x2C, 0x01, 0x00, 0x00] = .ok (.wpSet 300) ∧
    decode [0x19, 0xFF, 0xFF, 0xFF, 0xFF] = .ok (.wpSet (-1)) ∧ decode [0x19, 0x00, 0x01, 0x00, 0x00] = .ok (.wpSet 256) ∧
    decode [0x19, 0xFF, 0x00, 0x00, 0x00] = .ok (.wpSet 255) := by decide
/-- P3, line 6. -/
theorem test_decode_wpBuild : decode [0x1A, 0x02, 0xA2, 0xD5] = .ok (.wpBuild [0xA2, 0xD5]) := by decide
/-- S1, by the byte places of R51. -/
theorem test_decode_wireResponse : decode [0xAA, 0x5A, 0xD4, 0x04, 0x3A, 0x0A, 0xA2, 0xD5, 0x93, 0xAB] =
    .ok (.wireResponse 0x5A 0xD4 0x04 0x3A 0x0A 0xA2 0xD5 0x93 0xAB) := by decide
/-- By the byte places of R52, with a tail the table does not fix. -/
theorem test_decode_wireCommand :
    decode [0xAA, 0xC0, 1, 2, 3, 4, 5, 6, 7, 8, 9, 10, 11, 12, 13, 0xA2, 0xD5, 0x77, 0x00] =
      .ok (.wireCommand 0xC0 [1, 2, 3, 4, 5, 6, 7, 8, 9, 10, 11, 12, 13] 0xA2 0xD5 0x77 0x00) := by decide
/-- B1, B2, B3. -/
theorem test_decode_wireSw :
    decode [0xAA, 0xB4, 6, 0, 0, 0, 0, 0, 0, 0, 0, 0, 0, 0, 0, 0xA2, 0xD5, 0x7D, 0xAB] = .ok (.wireSwQuery 0xA2 0xD5 0x7D) ∧
    decode [0xAA, 0xB4, 6, 1, 0, 0, 0, 0, 0, 0, 0, 0, 0, 0, 0, 0xA2, 0xD5, 0x7E, 0xAB] = .ok (.wireSwSleep 0xA2 0xD5 0x7E) ∧
    decode [0xAA, 0xB4, 6, 1, 1, 0, 0, 0, 0, 0, 0, 0, 0, 0, 0, 0xA2, 0xD5, 0x7F, 0xAB] = .ok (.wireSwWake 0xA2 0xD5 0x7F) := by
  decide
/-- B5, B6, B7. -/
theorem test_decode_wireWp :
    decode [0xAA, 0xB4, 8, 0, 0, 0, 0, 0, 0, 0, 0, 0, 0, 0, 0, 0xA2, 0xD5, 0x7F, 0xAB] = .ok (.wireWpQuery 0xA2 0xD5 0x7F) ∧
    decode [0xAA, 0xB4, 8, 1, 0x19, 0, 0, 0, 0, 0, 0, 0, 0, 0, 0, 0xA2, 0xD5, 0x99, 0xAB] =
      .ok (.wireWpSet 0x19 0xA2 0xD5 0x99) ∧
    decode [0xAA, 0xB4, 8, 1, 0, 0, 0, 0, 0, 0, 0, 0, 0, 0, 0, 0xA2, 0xD5, 0x80, 0xAB] = .ok (.wireWpSet 0 0xA2 0xD5 0x80) := by
  decide
/-- X3, X4 and R66: what is no request. -/
theorem test_decode_reserved : decode [0x09] = .error .reservedOpcode ∧ decode [0x00] = .error .reservedOpcode ∧
    decode [0x0F] = .error .reservedOpcode ∧ decode [0x14] = .error .reservedOpcode ∧ decode [0x1B] = .error .reservedOpcode ∧
    decode [0xFF] = .error .reservedOpcode ∧ decode [0x05, 0x02] = .error .badShape ∧ decode [] = .error .truncated ∧
    decode [0x13, 0x02, 0xA2] = .error .truncated ∧ decode [0x06, 0x00] = .error .trailingBytes ∧
    decode [0xAA, 0x00] = .error .notAFrame := by decide
/-- A length byte above a smaller `MAX_OPERAND_LEN` (R10 allows 19). -/
theorem test_decode_list_limit : Decode.listFieldUpTo 19 (20 :: List.replicate 20 0) = .error .listTooLong ∧
    Decode.listFieldUpTo 19 (19 :: List.replicate 19 7) = .ok (List.replicate 19 7, []) := by decide

/-- Words of spec/opcode_table.json: byte 0 leftmost for a frame, operands of zeros for a request. -/
theorem test_table_words : decodeTableWord 8 0x06 = some .rxRead ∧ decodeTableWord 8 0x01 = some (.msgNew .response 0 [] []) ∧
    decodeTableWord 80 0xAA000000000000000000 = some (.wireResponse 0 0 0 0 0 0 0 0 0) ∧
    decodeTableWord 152 0xAAB408010000000000000000000000000000AB = some (.wireWpSet 0 0 0 0) := by decide +kernel
theorem test_table_word_first_byte_low : decodeTableWord 80 0x0000000000000000005AAA =
    some (.wireResponse 0x5A 0 0 0 0 0 0 0 0) := by decide +kernel

/-! ### Single steps -/

/-- What a test looks at: the Results, as their bytes, and `STATUS`. -/
def shown : Out → Option (List Bytes × Byte)
  | .next s => some (s.results.map Result.encode, s.status)
  | .fault _ => none
  | .refused _ => none

/-- Why a step was refused. -/
def refusal : Out → Option Refusal
  | .next _ => none
  | .fault _ => none
  | .refused r => some r

/-- A field of the next state. -/
def field {α : Type} (f : State → α) : Out → Option α
  | .next s => some (f s)
  | .fault _ => none
  | .refused _ => none

/-- The state after reset with one coming move. -/
def facing (ev : Event) : State := { State.reset with agenda := [ev] }

/-- A state with these coming moves. -/
def coming (evs : List Event) (s : State) : State := { s with agenda := evs }

/-- S1's frame. -/
def frameS1 : Bytes := [0xAA, 0x5A, 0xD4, 0x04, 0x3A, 0x0A, 0xA2, 0xD5, 0x93, 0xAB]

/-- S1's Message. -/
def messageS1 : Message := ⟨.response, 0x5A, [0xA2, 0xD5], [0xD4, 0x04, 0x3A, 0x0A]⟩

/-- An RX_READ in HUNT. -/
def hunting (sh : Shape) (held : Bytes) : State :=
  { State.reset with rxShape := sh, busy := true, rx := { State.reset.rx with state := .hunt }, held := held }

/-- An RX_READ in COLLECT with `cnt` bytes stored. -/
def collecting (sh : Shape) (cnt : Fin 20) (held : Bytes) : State :=
  { State.reset with
    rxShape := sh
    busy := true
    rx := ⟨.collect, cnt, (Vector.replicate 19 0x00).set 0 0xAA⟩
    held := held }

/-- A WRITE of S1's Message of which `idx` bytes have been accepted. -/
def sending (idx : Fin 20) : State :=
  { State.reset with busy := true, tx := ⟨.send, overwriteFront (Vector.replicate 19 0x00) frameS1, 10, idx⟩ }

/-- N1 and N8. -/
theorem test_msgNew : shown (step (facing (.request [0x01, 0x00, 0x5A, 0x02, 0xA2, 0xD5, 0x04, 0xD4, 0x04, 0x3A, 0x0A]))) =
      some ([[0x00, 0x00, 0x5A, 0x02, 0xA2, 0xD5, 0x04, 0xD4, 0x04, 0x3A, 0x0A]], 0x00) ∧
    shown (exec (.msgNew .response 0x5A [0xA2, 0xD5, 0x00] [0xD4, 0x04]) State.reset) =
      some ([[0x01, 0x00, 0x02, 0x04]], 0x10) := by decide +kernel
/-- N4 and N5. -/
theorem test_msgNew_lengths : shown (exec (.msgNew .command 0xB4 [0xA2, 0xD5] [0xD4, 0x04, 0x3A, 0x0A]) State.reset) =
      some ([[0x01, 0x00, 0x04, 0x0D]], 0x10) ∧
    shown (exec (.msgNew .response 0x5A [0xA2] [0xD4, 0x04, 0x3A, 0x0A]) State.reset) =
      some ([[0x01, 0x01, 0x01, 0x02]], 0x10) := by decide +kernel
/-- K6 and K7. -/
theorem test_checksum : shown (exec (.checksum [0xFF, 0xFF, 0xFF, 0xFF] [0xFF, 0xFF]) State.reset) = some ([[0x00, 0xFA]], 0x00) ∧
    shown (exec (.checksum (List.replicate 13 0xFF) [0xFF, 0xFF]) State.reset) = some ([[0x00, 0xF1]], 0x00) := by
  decide +kernel
/-- S1, and X6 refused. -/
theorem test_serialize : shown (exec (.serialize messageS1) State.reset) =
      some ([[0x00, 0x0A, 0xAA, 0x5A, 0xD4, 0x04, 0x3A, 0x0A, 0xA2, 0xD5, 0x93, 0xAB]], 0x00) ∧
    refusal (exec (.serialize ⟨.response, 0x5A, [0xA2, 0xD5], [1, 2, 3]⟩) State.reset) = some .notAMessage := by
  decide +kernel
/-- F3 (wrong head and tail, checksum byte zero) and F4. -/
theorem test_frameParse :
    shown (exec (.frameParse .response [0x00, 0x5A, 0xD4, 0x04, 0x3A, 0x0A, 0xA2, 0xD5, 0x00, 0x00]) State.reset) =
      some ([[0x00, 0x00, 0x5A, 0x02, 0xA2, 0xD5, 0x04, 0xD4, 0x04, 0x3A, 0x0A]], 0x00) ∧
    shown (exec (.frameParse .response (0xAA :: List.replicate 18 0)) State.reset) =
      some ([[0x01, 0x02, 0x13, 0x0A]], 0x10) := by decide +kernel
/-- F5. -/
theorem test_frameParse_command :
    shown (exec (.frameParse .command [0xAA, 0xB4, 8, 1, 0x19, 0, 0, 0, 0, 0, 0, 0, 0, 0, 0, 0xA2, 0xD5, 0x99, 0xAB])
      State.reset) =
      some ([[0x00, 0x01, 0xB4, 0x02, 0xA2, 0xD5, 0x0D, 8, 1, 0x19, 0, 0, 0, 0, 0, 0, 0, 0, 0, 0]], 0x00) := by
  decide +kernel
/-- X1. -/
theorem test_rxConfig : field State.cfg (exec (.rxConfig .command) State.reset) = some 0x01 ∧
    shown (exec (.rxConfig .command) State.reset) = some ([[0x00]], 0x00) := by decide +kernel
/-- R2, step 0; X5. -/
theorem test_rxRead : shown (exec .rxRead State.reset) = some ([], 0x09) ∧
    refusal (exec (.rxConfig .command) (hunting .response [])) = some .busy := by decide +kernel
/-- M1, M4 and M7. -/
theorem test_measDecode : shown (exec (.measDecode messageS1) State.reset) =
      some ([[0x00, 0x5A, 0x02, 0xA2, 0xD5, 0xD4, 0x04, 0x3A, 0x0A]], 0x00) ∧
    shown (exec (.measDecode ⟨.response, 0x5A, [0xA2, 0xD5], [0x01, 0x00, 0x00, 0x01]⟩) State.reset) =
      some ([[0x00, 0x5A, 0x02, 0xA2, 0xD5, 0x01, 0x00, 0x00, 0x01]], 0x00) ∧
    shown (exec (.measDecode ⟨.command, 0xB4, [0xA2, 0xD5], 6 :: 1 :: List.replicate 11 0⟩) State.reset) =
      some ([[0x01, 0x00, 0x0D, 0x04]], 0x10) := by decide +kernel
/-- W7: 1236 and 2618 stand for 123.6 and 261.8. -/
theorem test_physical : physical (u16le 0xD4 0x04) = 1236 / 10 ∧ physical (u16le 0x3A 0x0A) = 2618 / 10 := by decide +kernel
/-- T5 and the frame of S1. -/
theorem test_write : shown (exec (.write messageS1) State.reset) = some ([], 0x0C) ∧
    field (fun s => (s.tx.buf.toList.take 10, s.tx.len, s.tx.idx)) (exec (.write messageS1) State.reset) =
      some (frameS1, 10, 0) := by decide +kernel
/-- B16 (the builder is now of shape Response). -/
theorem test_swNew : field (fun s => (s.swb.buf.toList, s.swb.shape)) (exec (.swNew .response) State.reset) =
    some (6 :: List.replicate 12 0, .response) := by decide +kernel
/-- B2 and B4. -/
theorem test_swSleep : field (fun s => s.swb.buf.toList) (exec .swSleep State.reset) =
      some (6 :: 1 :: List.replicate 11 0) ∧
    field (fun s => s.swb.buf.toList) (exec .swSleep { State.reset with swb := State.reset.swb.setMode 1 1 }) =
      some (6 :: 1 :: List.replicate 11 0) := by decide +kernel
/-- B3. -/
theorem test_swWake : field (fun s => s.swb.buf.toList) (exec .swWake State.reset) =
    some (6 :: 1 :: 1 :: List.replicate 10 0) := by decide +kernel
/-- P1, line 3; B19; B20. -/
theorem test_swBuild :
    shown (exec (.swBuild [0xA2, 0xD5]) { State.reset with swb := State.reset.swb.setMode 1 0 }) =
      some ([[0x00, 0x01, 0xB4, 0x02, 0xA2, 0xD5, 0x0D, 6, 1, 0, 0, 0, 0, 0, 0, 0, 0, 0, 0, 0]], 0x00) ∧
    shown (exec (.swBuild []) State.reset) = some ([[0x01, 0x01, 0x00, 0x02]], 0x10) ∧
    shown (exec (.swBuild [0xA2]) { State.reset with swb := Builder.fresh 6 .response }) =
      some ([[0x01, 0x00, 0x0D, 0x04]], 0x10) := by decide +kernel
/-- B5. -/
theorem test_wpNew : field (fun s => (s.wpb.buf.toList, s.wpb.shape))
    (exec (.wpNew .command) { State.reset with wpb := (Builder.fresh 8 .response).setMode 1 25 }) =
    some (8 :: List.replicate 12 0, .command) := by decide +kernel
/-- B7, B8 and B15. -/
theorem test_wpSet : field (fun s => s.wpb.buf.toList) (exec (.wpSet 0) State.reset) =
      some (8 :: 1 :: 0 :: List.replicate 10 0) ∧
    field (fun s => s.wpb.buf.toList) (exec (.wpSet 255) State.reset) = some (8 :: 1 :: 0xFF :: List.replicate 10 0) ∧
    shown (exec (.wpSet 255) State.reset) = some ([[0x00]], 0x00) := by decide +kernel
/-- B13, B14 and B10. -/
theorem test_wpSet_range : shown (exec (.wpSet (-1)) State.reset) = some ([[0x02, 0xFF, 0xFF, 0xFF, 0xFF]], 0x20) ∧
    shown (exec (.wpSet 256) State.reset) = some ([[0x02, 0x00, 0x01, 0x00, 0x00]], 0x20) ∧
    field (fun s => s.wpb.buf.toList) (exec (.wpSet 300) { State.reset with wpb := State.reset.wpb.setMode 1 25 }) =
      some (8 :: 1 :: 25 :: List.replicate 10 0) := by decide +kernel
/-- P3, line 6; B17. -/
theorem test_wpBuild : shown (exec (.wpBuild [0xA2, 0xD5]) { State.reset with wpb := State.reset.wpb.setMode 1 0x19 }) =
      some ([[0x00, 0x01, 0xB4, 0x02, 0xA2, 0xD5, 0x0D, 8, 1, 0x19, 0, 0, 0, 0, 0, 0, 0, 0, 0, 0]], 0x00) ∧
    shown (exec (.wpBuild [0xA2, 0xD5]) { State.reset with wpb := (Builder.fresh 8 .response).setMode 1 0x19 }) =
      some ([[0x01, 0x00, 0x0D, 0x04]], 0x10) := by decide +kernel

/-- R1; R4 (wrong checksum, wrong tail). -/
theorem test_wireResponse :
    shown (exec (.wireResponse 0x5A 0xD4 0x04 0x3A 0x0A 0xA2 0xD5 0x93 0xAB) (hunting .response [])) =
      some ([[0x00, 0x00, 0x5A, 0x02, 0xA2, 0xD5, 0x04, 0xD4, 0x04, 0x3A, 0x0A]], 0x00) ∧
    shown (exec (.wireResponse 0x5A 0xD4 0x04 0x3A 0x0A 0xA2 0xD5 0x00 0x00) (hunting .response [])) =
      some ([[0x00, 0x00, 0x5A, 0x02, 0xA2, 0xD5, 0x04, 0xD4, 0x04, 0x3A, 0x0A]], 0x00) := by decide +kernel
/-- R8: the bytes before the frame hold a false head. -/
theorem test_wireResponse_false_head :
    shown (exec (.wireResponse 0x5A 0xD4 0x04 0x3A 0x0A 0xA2 0xD5 0x93 0xAB)
      (hunting .response [0x3A, 0x0A, 0xAA, 0xD5, 0x93, 0xAB])) =
      some ([[0x00, 0x00, 0xD5, 0x02, 0xD4, 0x04, 0x04, 0x93, 0xAB, 0xAA, 0x5A]], 0x00) ∧
    field State.held (exec (.wireResponse 0x5A 0xD4 0x04 0x3A 0x0A 0xA2 0xD5 0x93 0xAB)
      (hunting .response [0x3A, 0x0A, 0xAA, 0xD5, 0x93, 0xAB])) = some [0xA2, 0xD5, 0x93, 0xAB] := by decide +kernel
/-- S5's frame read back. -/
theorem test_wireCommand : shown (exec (.wireCommand 0xFF (List.replicate 13 0xFF) 0xFF 0xFF 0xF1 0xAB) (hunting .command [])) =
    some ([[0x00, 0x01, 0xFF, 0x02, 0xFF, 0xFF, 0x0D] ++ List.replicate 13 0xFF], 0x00) := by decide +kernel
/-- R5, R6. -/
theorem test_wireSwSleep : shown (exec (.wireSwSleep 0xA2 0xD5 0x7E) (hunting .command [])) =
      some ([[0x00, 0x01, 0xB4, 0x02, 0xA2, 0xD5, 0x0D, 6, 1, 0, 0, 0, 0, 0, 0, 0, 0, 0, 0, 0]], 0x00) ∧
    shown (exec (.wireSwSleep 0xA2 0xD5 0x7E) (hunting .response [])) =
      some ([[0x00, 0x00, 0xB4, 0x02, 0x00, 0x00, 0x04, 6, 1, 0, 0]], 0x00) ∧
    field State.held (exec (.wireSwSleep 0xA2 0xD5 0x7E) (hunting .response [])) =
      some [0, 0, 0, 0, 0, 0xA2, 0xD5, 0x7E, 0xAB] := by decide +kernel
/-- B1, B3, B5, B6 read by a reader of shape Command. -/
theorem test_wire_builder_frames : shown (exec (.wireSwQuery 0xA2 0xD5 0x7D) (hunting .command [])) =
      some ([[0x00, 0x01, 0xB4, 0x02, 0xA2, 0xD5, 0x0D, 6, 0, 0, 0, 0, 0, 0, 0, 0, 0, 0, 0, 0]], 0x00) ∧
    shown (exec (.wireSwWake 0xA2 0xD5 0x7F) (hunting .command [])) =
      some ([[0x00, 0x01, 0xB4, 0x02, 0xA2, 0xD5, 0x0D, 6, 1, 1, 0, 0, 0, 0, 0, 0, 0, 0, 0, 0]], 0x00) ∧
    shown (exec (.wireWpQuery 0xA2 0xD5 0x7F) (hunting .command [])) =
      some ([[0x00, 0x01, 0xB4, 0x02, 0xA2, 0xD5, 0x0D, 8, 0, 0, 0, 0, 0, 0, 0, 0, 0, 0, 0, 0]], 0x00) ∧
    shown (exec (.wireWpSet 0x19 0xA2 0xD5 0x99) (hunting .command [])) =
      some ([[0x00, 0x01, 0xB4, 0x02, 0xA2, 0xD5, 0x0D, 8, 1, 0x19, 0, 0, 0, 0, 0, 0, 0, 0, 0, 0]], 0x00) := by
  decide +kernel
/-- A frame that arrives while no RX_READ is in flight waits in the Link (R133). -/
theorem test_wire_waits : field State.held (exec (.wireSwQuery 0xA2 0xD5 0x7D) State.reset) =
    some [0xAA, 0xB4, 6, 0, 0, 0, 0, 0, 0, 0, 0, 0, 0, 0, 0, 0xA2, 0xD5, 0x7D, 0xAB] := by decide +kernel

/-- R2, steps 1, 4, 5 and 13. -/
theorem test_offer :
    shown (step { hunting .response [0x00] with agenda := [.offer] }) = some ([], 0x09) ∧
    shown (step { hunting .response [0xAA] with agenda := [.offer] }) = some ([], 0x0A) ∧
    shown (step { collecting .response 1 [0xAA] with agenda := [.offer] }) = some ([], 0x0A) ∧
    field (fun s => (s.rx.state, s.rx.cnt, s.busy)) (step { collecting .response 9 [0xAB] with agenda := [.offer] }) =
      some (.idle, 10, false) := by decide +kernel
/-- R10, T3: a link error. -/
theorem test_linkError :
    shown (step { collecting .response 5 [] with agenda := [.linkError] }) = some ([[0x03]], 0x30) ∧
    shown (step { sending 4 with agenda := [.linkError] }) = some ([[0x03]], 0x30) := by decide +kernel
/-- T2: the first and the last byte accepted. -/
theorem test_accept :
    field (fun s => (s.sent, s.tx.idx)) (step { sending 0 with agenda := [.accept] }) = some ([0xAA], 1) ∧
    shown (step { sending 9 with agenda := [.accept] }) = some ([[0x00, 0x0A]], 0x00) := by decide +kernel
/-- X7, X9: reset during a request, the byte in transfer both ways. -/
theorem test_reset :
    field (fun s => (s.results, s.status, s.held)) (step { collecting .response 5 [7, 8] with agenda := [.assertReset true] }) =
      some ([], 0x00, [8]) ∧
    field State.sent (step { sending 7 with sent := frameS1.take 7, agenda := [.assertReset false] }) =
      some (frameS1.take 7) ∧
    field State.sent (step { sending 7 with sent := frameS1.take 7, agenda := [.assertReset true] }) =
      some (frameS1.take 8) := by
  refine ⟨?_, ?_, ?_⟩ <;> rfl
/-- X8: what a reset puts back. -/
theorem test_reset_builders :
    field (fun s => (s.swb.buf.toList, s.cfg, s.resetInput))
      (step { State.reset with
        swb := State.reset.swb.setMode 1 0
        rxShape := .command
        resetInput := true
        agenda := [.releaseReset] }) = some (6 :: List.replicate 12 0, 0x00, false) := by rfl
/-- T5 as the Host reads it. -/
theorem test_readStatus : field State.reads (step { sending 3 with agenda := [.readStatus] }) = some [(.status, 0x0C)] ∧
    field State.reads (step (facing .readCfg)) = some [(.cfg, 0x00)] := by decide +kernel
/-- A byte that arrives waits; an empty agenda is a wait. -/
theorem test_arrive : field State.held (step (facing (.arrive 0x77))) = some [0x77] ∧
    field State.agenda (step State.reset) = some [] := by decide +kernel
/-- The request a table word places is the next step's (notes/assumptions/3.md). -/
theorem test_withFetchWord : shown (step (State.reset.withFetchWord 8 0x11)) = some ([[0x00]], 0x00) ∧
    shown (step ((hunting .response []).withFetchWord 8 0x06)) = some ([], 0x09) ∧
    field State.held (step (State.reset.withFetchWord 80 0xAA000000000000000000)) =
      some (0xAA :: List.replicate 9 0) := by decide +kernel

/-! ### The Host's text -/

/-- N1, B13, P1. -/
theorem test_parseLine :
    Text.parseLine "MSG_NEW resp, 0x5A, [A2 D5], [D4 04 3A 0A]" =
      some ⟨none, .request (.msgNew .response 0x5A [0xA2, 0xD5] [0xD4, 0x04, 0x3A, 0x0A])⟩ ∧
    Text.parseLine "WP_SET -1 ; out of range" = some ⟨none, .request (.wpSet (-1))⟩ ∧
    Text.parseLine "$m = SW_BUILD [A2 D5]" = some ⟨some "m", .request (.swBuild [0xA2, 0xD5])⟩ ∧
    Text.parseLine "WRITE $m" = some ⟨none, .write "m"⟩ ∧ Text.parseLine "SW_BUILD []" = some ⟨none, .request (.swBuild [])⟩ ∧
    Text.parseLine "SEND_PERIOD 25, [A2 D5]" = some ⟨none, .pseudo (.sendPeriod 25 [0xA2, 0xD5])⟩ ∧
    Text.parseLine "RX_CONFIG both" = none := by decide +kernel

/-- P2: the value bound by RX_READ is the operand of MEAS_DECODE. -/
theorem test_session :
    (Text.Session.receive ⟨[[⟨some "m", .request .rxRead⟩, ⟨some "r", .measDecode "m"⟩]], []⟩ (.ok (.message messageS1))).request =
      some [0x07, 0x00, 0x5A, 0x02, 0xA2, 0xD5, 0x04, 0xD4, 0x04, 0x3A, 0x0A] := by decide +kernel
/-- The Host issues a session's request as the next move, and the step takes it. -/
theorem test_issue :
    shown (step ((Text.Session.start [⟨none, .request (.swNew .command)⟩]).issue State.reset)) = some ([[0x00]], 0x00) := by
  decide +kernel
/-- An int outside 32 bits issues no request (notes/assumptions/21.md); the largest inside issues one. -/
theorem test_unrepresentable :
    (Text.Session.start [⟨none, .request (.wpSet 4294967321)⟩]).request = none ∧
    (Text.Session.start [⟨none, .request (.wpSet 2147483647)⟩]).request = some [0x19, 0xFF, 0xFF, 0xFF, 0x7F] := by decide
/-- R137: the observation of a run of one request is that of its Result, not of a byte that arrives behind it. -/
theorem test_observe : (facing (.request [0x11])).observe 0 = none ∧
    (coming [.request [0x05, 0x01], .arrive 7] State.reset).observe 2 =
      some ⟨[.ok .none], 0x01, 0x00, State.reset.swb, State.reset.wpb, [], []⟩ := by decide +kernel
/-- R125, R137: an RX_READ that waits, one that reset abandons and a run with no request are not observed. -/
theorem test_observe_none : (coming [.request [0x06]] State.reset).observe 2 = none ∧
    (coming [.request [0x06], .assertReset false, .releaseReset] State.reset).observe 4 = none ∧
    State.reset.observe 3 = none := by decide +kernel

/-! ### Witnesses: for each obligation with hypotheses, a state and operands that meet them, each clause at a boundary -/

/-- B2's Message: the sleep command. -/
def messageB2 : Message := ⟨.command, 0xB4, [0xA2, 0xD5], 6 :: 1 :: List.replicate 11 0⟩

theorem inv_reset : State.reset.Inv := by constructor <;> decide
theorem inv_hunting : (hunting .command [0xAA, 1, 2]).Inv := by constructor <;> decide
theorem inv_collecting : (coming [.offer] (collecting .response 9 [0xAB])).Inv := by constructor <;> decide
theorem inv_sending : (coming [.arrive 0] (sending 9)).Inv := by constructor <;> decide
theorem inv_in_reset : ({ State.reset with resetInput := true } : State).Inv := by constructor <;> decide

theorem witness_DecodeEncodeRoundTrip : (Instr.msgNew .response 0 (List.replicate 255 0) []).wf = true ∧
    (Instr.serialize messageS1).wf = true ∧ (Instr.swBuild []).wf = true ∧ (Instr.wpSet (-2147483648)).wf = true ∧
    (Instr.wireCommand 0xB4 (9 :: List.replicate 12 0) 0 0 0 0xAB).wf = true := by decide +kernel
theorem witness_DecodableBytesAreCanonical : decode [0x06] = .ok .rxRead ∧
    decode frameS1 = .ok (.wireResponse 0x5A 0xD4 0x04 0x3A 0x0A 0xA2 0xD5 0x93 0xAB) ∧
    (Instr.wireResponse 0x5A 0xD4 0x04 0x3A 0x0A 0xA2 0xD5 0x93 0xAB).isWire = true := by decide
theorem witness_ReservedRequestsRefused :
    ((0x09 : Byte) ∉ [0x01, 0x02, 0x03, 0x04, 0x05, 0x06, 0x07, 0x08, 0x10, 0x11, 0x12, 0x13, 0x18, 0x19, (0x1A : Byte)] ∧
      (facing (.request [0x09])).agenda = .request (0x09 :: []) :: []) ∧
    ((0x05 : Byte) ∈ [0x01, 0x03, 0x04, 0x05, 0x07, 0x08, 0x10, (0x18 : Byte)] ∧ (0x02 : Byte) ≠ 0x00 ∧ (0x02 : Byte) ≠ 0x01 ∧
      (facing (.request [0x05, 0x02])).agenda = .request (0x05 :: 0x02 :: []) :: []) ∧
    19 < (20 : Byte).toNat ∧
    ((Instr.wpSet 0).wf = true ∧ (Instr.wpSet 0).isWire = false ∧ 4 < (encode (.wpSet 0)).length ∧
      (facing (.request [0x19, 0, 0, 0])).agenda = .request ((encode (.wpSet 0)).take 4) :: []) ∧
    (State.reset.Ready ∧ (⟨.response, 0x5A, [0xA2, 0xD5], [1, 2, 3]⟩ : Message).valid = false) ∧
    ((hunting .response []).resetInput = false ∧ (hunting .response []).busy = true ∧ Instr.rxRead.isWire = false) := by decide
theorem witness_StepRunsDecoded : (facing (.request [0x06])).agenda = .request [0x06] :: [] ∧
    decodeRequest [0x06] = .ok .rxRead ∧ (facing (.frame frameS1)).agenda = .frame frameS1 :: [] ∧
    decodeFrame frameS1 = .ok (.wireResponse 0x5A 0xD4 0x04 0x3A 0x0A 0xA2 0xD5 0x93 0xAB) := by decide
theorem witness_ResultBytes : messageS1.deviceId.length < 256 ∧ messageS1.payload.length < 256 ∧
    (List.replicate 255 (0 : Byte)).length < 256 ∧ 255 < 256 ∧ ([0xA2, 0xD5] : Bytes).length < 256 := by decide +kernel
theorem witness_MsgNewResult : State.reset.Ready ∧ ([1, 2, 3, 4, 5] : Bytes).length ≠ Shape.response.dataLength ∧
    ([1, 2, 3, 4] : Bytes).length = Shape.response.dataLength ∧ ([1, 2, 3] : Bytes).length ≠ 2 ∧ ([1, 2] : Bytes).length = 2 := by
  decide
theorem witness_ChecksumResult : State.reset.Ready := by decide
theorem witness_ChecksumProperties : messageS1.valid = true ∧ ([1, 2] : Bytes).length = 2 ∧
    (List.replicate 13 (0xFF : Byte)).length = 13 ∧ ([1, 2, 3, 4] : Bytes).length = 4 ∧ 3 < ([1, 2, 3, 4] : Bytes).length ∧
    1 < ([1, 2] : Bytes).length ∧ 0 ≠ 3 := by decide
theorem witness_SerializeResult : State.reset.Ready ∧ messageB2.valid = true ∧
    (⟨.response, 0x5A, [0xA2, 0xD5, 0], [1, 2, 3, 4]⟩ : Message).valid = false := by decide
theorem witness_SerializedFrameShape : messageS1.valid = true ∧ messageB2.valid = true := by decide
theorem witness_ParseOfSerializedReturnsMessage : State.reset.Ready ∧ messageS1.valid = true ∧ messageB2.valid = true := by
  decide
theorem witness_FrameParseResult : State.reset.Ready ∧ ([] : Bytes).length ≠ Shape.response.messageLength ∧
    frameS1.length = Shape.response.messageLength := by decide
theorem witness_ParseIgnoresHeadChecksumTail : frameS1.length = Shape.response.messageLength ∧
    (frameS1.set 9 0).length = Shape.response.messageLength ∧
    ∀ k, 1 ≤ k → k < Shape.response.messageLength - 2 → frameS1[k]? = (frameS1.set 9 0)[k]? := by
  refine ⟨rfl, rfl, fun k _ h => ?_⟩
  rw [List.getElem?_set_ne]
  intro e
  subst e
  exact absurd h (by decide)
theorem witness_MeasDecodeResult : State.reset.Ready ∧ messageS1.valid = true ∧ messageS1.payload = [0xD4, 0x04, 0x3A, 0x0A] ∧
    messageS1.shape = .response ∧ messageB2.valid = true ∧ messageB2.shape = .command := by decide
theorem witness_SwNewResult : State.reset.Ready := by decide
theorem witness_SwSleepWakeResult : State.reset.Ready := by decide
theorem witness_BuildResult : State.reset.Ready ∧ ({ State.reset with swb := Builder.fresh 6 .response } : State).Ready ∧
    ({ State.reset with wpb := Builder.fresh 8 .response } : State).Ready ∧ (Builder.fresh 6 .response).shape = .response ∧
    State.reset.swb.shape = .command ∧ State.reset.wpb.shape = .command ∧ ([1] : Bytes).length ≠ 2 ∧
    ([1, 2] : Bytes).length = 2 := by decide
theorem witness_WpNewResult : State.reset.Ready := by decide
theorem witness_WpSetResult : State.reset.Ready ∧ ((-1 : Int) < 0 ∨ 255 < (-1 : Int)) ∧ ((256 : Int) < 0 ∨ 255 < (256 : Int)) ∧
    ((0 : Int) ≤ 0 ∧ (0 : Int) ≤ 255) ∧ ((0 : Int) ≤ 255 ∧ (255 : Int) ≤ 255) := by decide
theorem witness_LastSetCallWins : State.reset.Ready ∧ (0 : Int) ≤ 0 ∧ (0 : Int) ≤ 255 ∧ (0 : Int) ≤ 255 ∧ (255 : Int) ≤ 255 := by
  decide
/-- SW_BUILD, SW_NEW over a sleep builder, WP_NEW over a set period, and a failed WP_SET. -/
theorem witness_BuildersPersist : (∃ t, exec (.swBuild []) State.reset = .next t) ∧
    (∃ t, exec (.swNew .command) { State.reset with swb := State.reset.swb.setMode 1 0 } = .next t ∧ t.swb.buf[1] ≠ 0x01) ∧
    (State.reset.swb.setMode 1 0).buf[1] = 0x01 ∧
    (∃ t, exec (.wpNew .command) { State.reset with wpb := State.reset.wpb.setMode 1 25 } = .next t ∧ t.wpb.buf[1] ≠ 0x01) ∧
    (State.reset.wpb.setMode 1 25).buf[1] = 0x01 ∧ (∃ t, exec (.wpSet 256) State.reset = .next t ∧ t.err ≠ 0) := by
  refine ⟨⟨_, rfl⟩, ⟨_, rfl, by decide⟩, by decide, ⟨_, rfl, by decide⟩, by decide, ⟨_, rfl, by decide⟩⟩
theorem witness_BuiltFramesAreTheirRows : State.reset.Inv ∧ (∃ m, build State.reset.swb [0xA2, 0xD5] = .ok m) ∧
    ∃ m, build State.reset.wpb [0xA2, 0xD5] = .ok m := ⟨inv_reset, ⟨_, rfl⟩, ⟨_, rfl⟩⟩
theorem witness_ComputingRequestsFrame : (∃ t, exec (.msgNew .response 0 [] []) State.reset = .next t) ∧
    (∃ t, exec (.checksum [] []) State.reset = .next t) ∧ (∃ t, exec (.serialize messageS1) State.reset = .next t) ∧
    (∃ t, exec (.frameParse .command []) State.reset = .next t) ∧ (∃ t, exec (.measDecode messageB2) State.reset = .next t) ∧
    (∃ t, exec (.swBuild []) State.reset = .next t) ∧ (∃ t, exec (.wpBuild [1, 2]) State.reset = .next t) :=
  ⟨⟨_, rfl⟩, ⟨_, rfl⟩, ⟨_, rfl⟩, ⟨_, rfl⟩, ⟨_, rfl⟩, ⟨_, rfl⟩, ⟨_, rfl⟩⟩
theorem witness_SettingRequestsFrame : (∃ t, exec (.swNew .response) State.reset = .next t) ∧
    (∃ t, exec .swSleep State.reset = .next t) ∧ (∃ t, exec .swWake State.reset = .next t) ∧
    (∃ t, exec (.wpNew .response) State.reset = .next t) ∧ (∃ t, exec (.wpSet 256) State.reset = .next t) ∧
    ∃ t, exec (.rxConfig .command) State.reset = .next t :=
  ⟨⟨_, rfl⟩, ⟨_, rfl⟩, ⟨_, rfl⟩, ⟨_, rfl⟩, ⟨_, rfl⟩, ⟨_, rfl⟩⟩
theorem witness_EngineRequestsFrame : (∃ t, exec .rxRead State.reset = .next t) ∧
    ∃ t, exec (.write messageS1) State.reset = .next t := ⟨⟨_, rfl⟩, ⟨_, rfl⟩⟩
theorem witness_WireFramesFrame : (Instr.wireSwQuery 0xA2 0xD5 0x7D).isWire = true ∧
    (∃ t, exec (.wireSwQuery 0xA2 0xD5 0x7D) State.reset = .next t) ∧ State.reset.rx.state = .idle := ⟨rfl, ⟨_, rfl⟩, rfl⟩
theorem witness_ErrorWritesOnlyStatus : Instr.isWire (.wpSet 256) = false ∧
    (∃ t, exec (.wpSet 256) State.reset = .next t ∧ t.results = State.reset.results ++ [.err (.invalidArgument 256)]) ∧
    (let s := coming [.linkError] (hunting .response [])
     s.agenda = .linkError :: [] ∧ s.rx.state ≠ .idle ∧ ∃ t, step s = .next t ∧ t.results ≠ s.results) ∧
    (let s := coming [.linkError] (sending 0)
     s.agenda = .linkError :: [] ∧ s.rx.state = .idle ∧ ∃ t, step s = .next t ∧ t.results ≠ s.results) :=
  ⟨rfl, ⟨_, rfl, rfl⟩, ⟨rfl, by decide, _, rfl, by decide⟩, ⟨rfl, rfl, _, rfl, by decide⟩⟩
theorem witness_RxConfigResult : State.reset.resetInput = false ∧ State.reset.busy = false ∧
    (hunting .response []).resetInput = false ∧ (hunting .response []).busy = true := by decide
theorem witness_RxReadIssue : State.reset.Ready := by decide
theorem witness_HuntStep : (coming [.offer] (hunting .response [0xAA, 1])).resetInput = false ∧
    (coming [.offer] (hunting .response [0xAA, 1])).rx.state = .hunt ∧
    (coming [.offer] (hunting .response [0xAA, 1])).held = 0xAA :: [1] ∧
    (coming [.offer] (hunting .response [0xAA, 1])).agenda = .offer :: [] ∧
    (coming [.offer] (hunting .response [0xAB])).resetInput = false ∧
    (coming [.offer] (hunting .response [0xAB])).rx.state = .hunt ∧
    (coming [.offer] (hunting .response [0xAB])).held = 0xAB :: [] ∧
    (coming [.offer] (hunting .response [0xAB])).agenda = .offer :: [] ∧ (0xAB : Byte) ≠ 0xAA := by decide
theorem witness_CollectStep : (coming [.offer] (collecting .response 9 [0xAB])).rx.cnt.val < 19 ∧
    (coming [.offer] (collecting .response 9 [0xAB])).resetInput = false ∧
    (coming [.offer] (collecting .response 9 [0xAB])).rx.state = .collect ∧
    (coming [.offer] (collecting .response 9 [0xAB])).held = 0xAB :: [] ∧
    (coming [.offer] (collecting .response 9 [0xAB])).agenda = .offer :: [] ∧
    (coming [.offer] (collecting .response 9 [0xAB])).rx.cnt.val + 1 = Shape.response.messageLength ∧
    (coming [.offer] (collecting .response 9 [0xAB])).Inv ∧
    (coming [.offer] (collecting .response 8 [0xAA])).rx.cnt.val + 1 ≠ Shape.response.messageLength ∧
    (coming [.offer] (collecting .response 8 [0xAA])).rx.state = .collect :=
  ⟨by decide, rfl, rfl, rfl, rfl, rfl, inv_collecting, by decide, rfl⟩
/-- R2: three bytes of garbage, S1's frame, one byte behind it. -/
theorem witness_RxReadOfStream :
    let s := coming (List.replicate 13 .offer) (hunting .response ([0x00, 0xFF, 0xAB] ++ frameS1 ++ [0x77]))
    s.resetInput = false ∧ s.rx.state = .hunt ∧ s.held = [0x00, 0xFF, 0xAB] ++ [0xAA] ++ frameS1.drop 1 ++ [0x77] ∧
      (∀ b ∈ ([0x00, 0xFF, 0xAB] : Bytes), b ≠ 0xAA) ∧ (frameS1.drop 1).length + 1 = s.rxShape.messageLength ∧
      s.agenda = List.replicate (([0x00, 0xFF, 0xAB] : Bytes).length + s.rxShape.messageLength) .offer ++ [] := by decide
theorem witness_RxLinkError : (coming [.linkError] (hunting .response [])).resetInput = false ∧
    (coming [.linkError] (hunting .response [])).rx.state = .hunt ∧
    (coming [.linkError] (hunting .response [])).agenda = .linkError :: [] ∧
    (coming [.linkError] (collecting .command 18 [])).resetInput = false ∧
    (coming [.linkError] (collecting .command 18 [])).rx.state = .collect ∧
    (coming [.linkError] (collecting .command 18 [])).agenda = .linkError :: [] := by decide
/-- A WRITE waits while a byte arrives. -/
theorem witness_WaitEndsOnlyByLinkOrReset : (coming [.arrive 0] (sending 9)).Inv ∧
    (coming [.arrive 0] (sending 9)).busy = true ∧ ∃ t, step (coming [.arrive 0] (sending 9)) = .next t :=
  ⟨inv_sending, rfl, ⟨_, rfl⟩⟩
theorem witness_WireResponseCompletesRead : (hunting .response []).resetInput = false ∧
    (hunting .response []).rx.state = .hunt ∧ (hunting .response []).rxShape = .response ∧ (hunting .response []).held = [] := by
  decide
theorem witness_WireCommandsCompleteRead : (hunting .command []).resetInput = false ∧ (hunting .command []).rx.state = .hunt ∧
    (hunting .command []).rxShape = .command ∧ (hunting .command []).held = [] ∧ (List.replicate 13 (0xAA : Byte)).length = 13 := by
  decide
theorem witness_WireFramesWaitInLink : (Instr.wireWpQuery 0 0 0).isWire = true ∧ State.reset.rx.state = .idle ∧
    ({ hunting .response [] with resetInput := true } : State).resetInput = true := by decide
theorem witness_WireFrameIsRunOfLinkSteps : (Instr.wireWpQuery 0 0 0).isWire = true ∧ State.reset.agenda = [] := by decide
theorem witness_ShapeMismatchMisreadsFrames : (Instr.wireResponse 0 0 0 0 0 0 0 0 0).isWire = true ∧
    (encode (.wireResponse 0 0 0 0 0 0 0 0 0)).length = 10 ∧ (Instr.wireSwSleep 0xA2 0xD5 0x7E).isWire = true ∧
    (encode (.wireSwSleep 0xA2 0xD5 0x7E)).length = 19 ∧ (hunting .command []).rxShape = .command ∧
    (hunting .command []).rx.state = .hunt ∧ (hunting .command []).resetInput = false ∧ (hunting .command []).held = [] ∧
    (hunting .response []).rxShape = .response := by decide
theorem witness_WriteIssue : State.reset.Ready ∧ messageS1.valid = true ∧ messageB2.valid = true := by decide
theorem witness_TxStep : (coming [.accept] (sending 9)).tx.idx.val < 19 ∧ (coming [.accept] (sending 9)).resetInput = false ∧
    (coming [.accept] (sending 9)).tx.state = .send ∧ (coming [.accept] (sending 9)).agenda = .accept :: [] ∧
    (coming [.accept] (sending 9)).tx.idx + 1 = (coming [.accept] (sending 9)).tx.len ∧
    (coming [.accept] (sending 8)).tx.state = .send ∧ (coming [.accept] (sending 8)).agenda = .accept :: [] ∧
    (coming [.accept] (sending 8)).tx.idx + 1 ≠ (coming [.accept] (sending 8)).tx.len := by decide
theorem witness_WriteSendsFrame :
    let s := coming (.request (encode (.write messageB2)) :: List.replicate 19 .accept) State.reset
    s.Ready ∧ messageB2.valid = true ∧
      s.agenda = .request (encode (.write messageB2)) :: List.replicate messageB2.shape.messageLength .accept ++ [] := by
  decide
theorem witness_TxLinkError : (coming [.linkError] (sending 4)).resetInput = false ∧
    (coming [.linkError] (sending 4)).rx.state = .idle ∧ (coming [.linkError] (sending 4)).tx.state = .send ∧
    (coming [.linkError] (sending 4)).agenda = .linkError :: [] := by decide
theorem witness_HostReadsRegisters : (facing .readCfg).agenda = .readCfg :: [] ∧
    (facing .readStatus).agenda = .readStatus :: [] := by decide
theorem witness_ReservedRegisterFields : (coming [.offer] (collecting .response 9 [0xAB])).Inv := inv_collecting
theorem witness_ResetSetsEveryElement :
    ((coming [.assertReset false] State.reset).resetInput = false ∧
      (coming [.assertReset false] State.reset).agenda = .assertReset false :: []) ∧
    ((coming [.assertReset true] (sending 7)).resetInput = false ∧
      (coming [.assertReset true] (sending 7)).agenda = .assertReset true :: [] ∧
      (coming [.assertReset true] (sending 7)).rx.state = .idle ∧
      (coming [.assertReset true] (sending 7)).tx.state = .send ∧ (coming [.assertReset true] (sending 7)).tx.idx.val < 19) ∧
    ((coming [.assertReset true] (collecting .response 5 [7])).resetInput = false ∧
      (coming [.assertReset true] (collecting .response 5 [7])).rx.state ≠ .idle ∧
      (coming [.assertReset true] (collecting .response 5 [7])).tx.state = .idle) ∧
    ({ facing .releaseReset with resetInput := true } : State).resetInput = true ∧
    ({ facing .releaseReset with resetInput := true } : State).agenda = .releaseReset :: [] := by decide
theorem witness_NothingMovesInReset : ({ facing .offer with resetInput := true } : State).resetInput = true ∧
    Instr.rxRead.isWire = false ∧ ({ facing .offer with resetInput := true } : State).agenda = .offer :: [] ∧
    ({ facing .accept with resetInput := true } : State).agenda = .accept :: [] ∧
    ({ facing .linkError with resetInput := true } : State).agenda = .linkError :: [] := by decide
theorem witness_StatusRecordsLastResult : (∃ t, step (facing (.request [0x11])) = .next t ∧ t.results ≠ State.reset.results) ∧
    ∃ t, step { hunting .response [] with agenda := [.assertReset false], err := 2 } = .next t :=
  ⟨⟨_, rfl, by decide⟩, ⟨_, rfl⟩⟩
theorem witness_OnlyTheirRequestsWriteBuilders : ∃ t, step (facing (.request [0x12])) = .next t ∧ t.swb ≠ State.reset.swb :=
  ⟨_, rfl, by decide⟩
theorem witness_LinkBytesMoveOnlyInFlight : (facing (.frame frameS1)).rx.state = .idle ∧
    (facing (.frame frameS1)).tx.state = .idle ∧ ∃ t, step (facing (.frame frameS1)) = .next t := ⟨rfl, rfl, ⟨_, rfl⟩⟩
theorem witness_StepKeepsInv : (coming [.offer] (collecting .response 9 [0xAB])).Inv ∧
    ∃ t, step (coming [.offer] (collecting .response 9 [0xAB])) = .next t := ⟨inv_collecting, ⟨_, rfl⟩⟩
theorem witness_NoFaultUnderInv : (hunting .command [0xAA, 1, 2]).Inv ∧ (coming [.arrive 0] (sending 9)).Inv ∧
    ({ State.reset with resetInput := true } : State).Inv := ⟨inv_hunting, inv_sending, inv_in_reset⟩
theorem witness_RunEndsAfterLastResult : (∃ o, (facing (.request [0x11])).observe 1 = some o) ∧
    (let s := coming [.assertReset false] (hunting .response [])
     s.resetInput = false ∧ s.agenda = .assertReset false :: [] ∧ ∀ bs, Event.request bs ∉ ([] : List Event)) ∧
    (State.reset.rx.state = .idle ∧ State.reset.tx.state = .idle ∧ ∀ bs, Event.request bs ∉ State.reset.agenda) :=
  ⟨⟨_, rfl⟩, ⟨rfl, rfl, by simp⟩, rfl, rfl, by simp [State.reset]⟩

end Sys2Proof.Tests
end

/-! PROOFS. The statements of 00_scope.md: a step runs the decoded instruction, and every step keeps the
invariant. The invariant is shown first of each way a state is written (environment, end of a request, start of a request,
link steps, reset), then of each move. -/

namespace Sys2Proof.Machine

/-! ### A move whose bytes decode -/

theorem stepEvent_request {bs : Bytes} {i : Instr} (h : decodeRequest bs = .ok i) (s : State) :
    stepEvent (.request bs) s = exec i s := by simp only [stepEvent, h]

theorem stepEvent_frame {bs : Bytes} {i : Instr} (h : decodeFrame bs = .ok i) (s : State) :
    stepEvent (.frame bs) s = exec i s := by simp only [stepEvent, h]

/-- Settles O5: the head of the agenda is taken off, and its bytes' instruction is executed. -/
theorem stepRunsDecoded : Obligations.StepRunsDecoded :=
  ⟨fun _ _ _ _ hagenda hdecode => (step_cons hagenda).trans (stepEvent_request hdecode _),
    fun _ _ _ _ hagenda hdecode => (step_cons hagenda).trans (stepEvent_frame hdecode _)⟩

/-! ### What the requests do to the builders -/

/-- Everything a host request that answers a next state can do to the builders (41_command_builders.md R81 to R83, R85, R86). -/
theorem exec_host_builders {i : Instr} (h : i.isWire = false) {s t : State} (e : exec i s = .next t) :
    (t.swb = s.swb ∧ t.wpb = s.wpb) ∨
    (t.wpb = s.wpb ∧
      ((∃ sh, i = .swNew sh ∧ t.swb = Builder.fresh Config.subcmdSleepWake sh) ∨
        (i = .swSleep ∧ t.swb = s.swb.setMode 1 0) ∨ (i = .swWake ∧ t.swb = s.swb.setMode 1 1))) ∨
    (t.swb = s.swb ∧
      ((∃ sh, i = .wpNew sh ∧ t.wpb = Builder.fresh Config.subcmdWorkPeriod sh) ∨
        ∃ n, i = .wpSet n ∧ t.wpb = s.wpb.setMode 1 (BitVec.ofInt 8 n))) := by
  cases i
  case swNew sh => cases (take_next e).2; exact .inr (.inl ⟨rfl, .inl ⟨sh, rfl, rfl⟩⟩)
  case swSleep => cases (take_next e).2; exact .inr (.inl ⟨rfl, .inr (.inl ⟨rfl, rfl⟩)⟩)
  case swWake => cases (take_next e).2; exact .inr (.inl ⟨rfl, .inr (.inr ⟨rfl, rfl⟩)⟩)
  case wpNew sh => cases (take_next e).2; exact .inr (.inr ⟨rfl, .inl ⟨sh, rfl, rfl⟩⟩)
  case wpSet n =>
    have effect := (take_next e).2
    split at effect <;> cases effect
    · exact .inl ⟨rfl, rfl⟩
    · exact .inr (.inr ⟨rfl, .inr ⟨n, rfl, rfl⟩⟩)
  case serialize m => cases (needMessage_next (take_next e).2).2; exact .inl ⟨rfl, rfl⟩
  case measDecode m => cases (needMessage_next (take_next e).2).2; exact .inl ⟨rfl, rfl⟩
  case write m => cases (needMessage_next (take_next e).2).2; exact .inl ⟨rfl, rfl⟩
  case msgNew | checksum | frameParse | rxConfig | rxRead | swBuild | wpBuild =>
    cases (take_next e).2; exact .inl ⟨rfl, rfl⟩
  all_goals cases h

theorem Builder.fresh_swPayload (sh : Shape) :
    (Builder.fresh Config.subcmdSleepWake sh).buf.toList = swPayload 0 0 := rfl

theorem Builder.fresh_wpPayload (sh : Shape) :
    (Builder.fresh Config.subcmdWorkPeriod sh).buf.toList = wpPayload 0 0 := rfl

theorem Builder.setMode_toList (b : Builder) (f v : Byte) :
    (b.setMode f v).buf.toList = (b.buf.toList.set 1 f).set 2 v := by
  simp only [Builder.setMode_buf, Vector.toList_set]

theorem Builder.setMode_swPayload {b : Builder} {f v : Byte} (h : b.buf.toList = swPayload f v) (g w : Byte) :
    (b.setMode g w).buf.toList = swPayload g w := by
  rw [Builder.setMode_toList, h]; rfl

theorem Builder.setMode_wpPayload {b : Builder} {f v : Byte} (h : b.buf.toList = wpPayload f v) (g w : Byte) :
    (b.setMode g w).buf.toList = wpPayload g w := by
  rw [Builder.setMode_toList, h]; rfl

/-- The error codes written are those of 60_exceptions.md R111. -/
theorem result_code_le (r : Result) : r.code.toNat ≤ 3 := by
  rcases r with v | e
  · simp [Result.code]
  · cases e <;> simp [Result.code, ReqError.code]

namespace State.Inv

/-! ### Writes of the state outside the link steps -/

variable {s t : State}

/-- With `BUSY` = 0 no engine is in use (10_state.md R22). -/
theorem idle_of_not_busy (h : s.Inv) (hb : s.busy = false) : s.rx.state = .idle ∧ s.tx.state = .idle := by
  have hunused : ¬(s.rx.state ≠ .idle ∨ s.tx.state = .send) := fun hu => by simp [h.busy_iff.2 hu] at hb
  obtain ⟨hx, ht⟩ := not_or.1 hunused
  refine ⟨not_not.1 hx, ?_⟩
  cases hs : s.tx.state with
  | idle => rfl
  | send => exact absurd hs ht

/-- The invariant does not speak of the environment at the two ports. -/
theorem with_environment (h : s.Inv) (reads : List (HostReg × Byte)) (held sent : Bytes) (agenda : List Event) :
    State.Inv { s with reads := reads, held := held, sent := sent, agenda := agenda } := { h with }

/-- A request ends while reset is released, with a Result that holds no invalid Message. -/
theorem after_finish (h : s.Inv) (hr : s.resetInput = false) {r : Result} (hv : r.messageValid = true) :
    (finish r s).Inv :=
  { h with
    err_code := result_code_le r
    results_valid := by
      intro x hx
      rcases List.mem_append.1 hx with hx | hx
      · exact h.results_valid x hx
      · rwa [List.mem_singleton.1 hx]
    in_reset := by simp [hr] }

/-- The RX engine goes IDLE while TX is IDLE, whatever it had counted and stored. -/
theorem rx_idle (h : s.Inv) (ht : s.tx.state = .idle) (cnt : Fin 20) (buf : Vector Byte 19) :
    State.Inv { s with rx := ⟨.idle, cnt, buf⟩, busy := false } :=
  { h with
    busy_iff := by simp [ht]
    one_request := .inl rfl
    rx_count := nofun
    rx_head := nofun
    in_reset := fun hr => ⟨rfl, (h.in_reset hr).2⟩ }

/-- The TX engine goes IDLE while RX is IDLE, whatever it had sent. -/
theorem tx_idle (h : s.Inv) (hx : s.rx.state = .idle) (buf : Vector Byte 19) (len idx : Fin 20) :
    State.Inv { s with tx := ⟨.idle, buf, len, idx⟩, busy := false } :=
  { h with
    busy_iff := by simp [hx]
    one_request := .inr rfl
    tx_length := nofun
    tx_index := nofun
    in_reset := fun hr => ⟨rfl, (h.in_reset hr).2⟩ }

/-- Reset writes every element the invariant speaks of but the Results, and keeps those. -/
theorem of_blockReset (h : ∀ r ∈ s.results, r.messageValid = true) (ri : Bool) :
    State.Inv { blockReset s with resetInput := ri } where
  busy_iff := by simp
  one_request := .inl rfl
  rx_count := nofun
  rx_head := nofun
  tx_length := nofun
  tx_index := nofun
  err_code := by simp
  sw_payload := .inl (Builder.fresh_swPayload _)
  wp_payload := .inl (Builder.fresh_wpPayload _)
  results_valid := h
  in_reset := fun _ => ⟨rfl, rfl⟩

theorem after_assertReset (h : s.Inv) (moved : Bool) : (assertReset moved s).Inv := by
  rcases assertReset_cases moved s with ⟨_, e⟩ | ⟨_, _, e⟩ | ⟨_, _, e⟩ <;> rw [e]
  · exact h
  · exact of_blockReset h.results_valid true
  · exact of_blockReset (s := byteInTransfer s) h.results_valid true

theorem after_releaseReset (h : s.Inv) : (releaseReset s).Inv := by
  rcases releaseReset_cases s with ⟨_, e⟩ | ⟨_, e⟩ <;> rw [e]
  · exact h
  · exact of_blockReset h.results_valid false

/-! ### Link steps -/

theorem after_huntStep (h : s.Inv) (hs : s.rx.state = .hunt) (b : Byte) : (huntStep b s).Inv := by
  have hbusy : s.busy = true := h.busy_iff.2 (.inl (by simp [hs]))
  have htx : s.tx.state = .idle := h.one_request.resolve_left (by simp [hs])
  unfold huntStep
  split
  · exact { h with
      busy_iff := by simp [hbusy]
      one_request := .inr htx
      rx_count := fun _ => ⟨le_refl 1, lt_of_lt_of_le (by simp) s.rxShape.messageLength_ge⟩
      rx_head := fun _ => by simp }
  · exact h

/-- A byte stored before the frame's last leaves the count inside the frame, and the head in place since the count is not 0. -/
theorem after_stored (h : s.Inv) (hs : s.rx.state = .collect) (b : Byte) (hlt : s.rx.cnt.val < 19)
    (hmore : s.rx.cnt.val + 1 ≠ s.rxShape.messageLength) : (stored b s hlt).Inv := by
  obtain ⟨hpos, hin⟩ := h.rx_count hs
  exact { h with
    rx_count := fun _ => by
      simp only [stored, fin20_succ hlt]
      omega
    rx_head := fun _ => by
      have hne : s.rx.cnt.val ≠ 0 := by omega
      simp [stored, hne, h.rx_head hs] }

theorem after_collectStep (h : s.Inv) (hr : s.resetInput = false) (hs : s.rx.state = .collect) {b : Byte}
    (e : collectStep b s = .next t) : t.Inv := by
  rcases collectStep_cases b s with ⟨_, _, e'⟩ | ⟨hlt, hmore, e'⟩ | ⟨_, e'⟩ <;> rw [e'] at e <;> cases e
  · have htx : s.tx.state = .idle := h.one_request.resolve_left (by simp [hs])
    exact (h.rx_idle htx _ _).after_finish hr (collected_valid _)
  · exact h.after_stored hs b hlt hmore

theorem after_linkOffer (h : s.Inv) (e : linkOffer s = .next t) : t.Inv := by
  rcases linkOffer_cases s with ⟨_, e'⟩ | ⟨_, hs, b, rest, _, e'⟩ | ⟨hr, hs, b, rest, _, e'⟩ <;> rw [e'] at e
  · cases e; exact h
  · cases e; exact (h.with_environment s.reads rest s.sent s.agenda).after_huntStep hs b
  · exact (h.with_environment s.reads rest s.sent s.agenda).after_collectStep hr hs e

theorem after_linkBurst (h : s.Inv) {bs : Bytes} (e : linkBurst bs s = .next t) : t.Inv :=
  linkOffers_keeps (fun _ _ hi e' => hi.after_linkOffer e') (h.with_environment s.reads (s.held ++ bs) s.sent s.agenda) e

theorem after_linkAccept (h : s.Inv) (e : linkAccept s = .next t) : t.Inv := by
  rcases linkAccept_cases s with ⟨_, e'⟩ | ⟨hr, hs, _, _, e'⟩ | ⟨_, hs, hlt, hmore, e'⟩ | ⟨_, _, _, e'⟩ <;>
    rw [e'] at e <;> cases e
  · exact h
  · have hrx : s.rx.state = .idle := h.one_request.resolve_right (by simp [hs])
    exact ((h.tx_idle hrx _ _ _).with_environment s.reads s.held _ s.agenda).after_finish hr rfl
  · have hnext : (s.tx.idx + 1).val < s.tx.len.val := by
      have hin := h.tx_index hs
      have hne : s.tx.idx.val + 1 ≠ s.tx.len.val := fun eq => hmore (Fin.ext (by rw [fin20_succ hlt, eq]))
      rw [fin20_succ hlt]
      omega
    exact { h with tx_index := fun _ => hnext }

theorem after_linkError (h : s.Inv) : (linkError s).Inv := by
  rcases linkError_cases s with ⟨_, e⟩ | ⟨hr, hs, e⟩ | ⟨hr, hs, _, e⟩ <;> rw [e]
  · exact h
  · exact (h.rx_idle (h.one_request.resolve_left hs) _ _).after_finish hr rfl
  · exact (h.tx_idle hs _ _ _).after_finish hr rfl

/-! ### Requests -/

theorem sw_payload_exec (h : s.Inv) {i : Instr} (hi : i.isWire = false) (e : exec i s = .next t) :
    t.swb.buf.toList = swPayload 0 0 ∨ t.swb.buf.toList = swPayload 1 0 ∨ t.swb.buf.toList = swPayload 1 1 := by
  obtain ⟨f, v, hp⟩ : ∃ f v, s.swb.buf.toList = swPayload f v := by
    rcases h.sw_payload with hp | hp | hp <;> exact ⟨_, _, hp⟩
  rcases exec_host_builders hi e with ⟨e', _⟩ | ⟨_, ⟨sh, _, e'⟩ | ⟨_, e'⟩ | ⟨_, e'⟩⟩ | ⟨e', _⟩ <;> rw [e']
  · exact h.sw_payload
  · exact .inl (Builder.fresh_swPayload sh)
  · exact .inr (.inl (Builder.setMode_swPayload hp 1 0))
  · exact .inr (.inr (Builder.setMode_swPayload hp 1 1))
  · exact h.sw_payload

theorem wp_payload_exec (h : s.Inv) {i : Instr} (hi : i.isWire = false) (e : exec i s = .next t) :
    t.wpb.buf.toList = wpPayload 0 0 ∨ ∃ n : Byte, t.wpb.buf.toList = wpPayload 1 n := by
  obtain ⟨f, v, hp⟩ : ∃ f v, s.wpb.buf.toList = wpPayload f v := by
    rcases h.wp_payload with hp | ⟨n, hp⟩ <;> exact ⟨_, _, hp⟩
  rcases exec_host_builders hi e with ⟨_, e'⟩ | ⟨e', _⟩ | ⟨_, ⟨sh, _, e'⟩ | ⟨n, _, e'⟩⟩ <;> rw [e']
  · exact h.wp_payload
  · exact h.wp_payload
  · exact .inl (Builder.fresh_wpPayload sh)
  · exact .inr ⟨_, Builder.setMode_wpPayload hp 1 (BitVec.ofInt 8 n)⟩

/-- In a Ready state `CFG` and the builders may be written, the builders with payloads of theirs: no COLLECT reads the shape. -/
theorem with_settings (h : s.Inv) (hb : s.busy = false) (sh : Shape) (swb wpb : Builder)
    (hsw : swb.buf.toList = swPayload 0 0 ∨ swb.buf.toList = swPayload 1 0 ∨ swb.buf.toList = swPayload 1 1)
    (hwp : wpb.buf.toList = wpPayload 0 0 ∨ ∃ n : Byte, wpb.buf.toList = wpPayload 1 n) :
    State.Inv { s with rxShape := sh, swb := swb, wpb := wpb } :=
  { h with
    rx_count := fun hc => by simp [(h.idle_of_not_busy hb).1] at hc
    sw_payload := hsw
    wp_payload := hwp }

/-- RX_READ at issue: RX hunts, TX is IDLE. -/
theorem start_read (h : s.Inv) (hready : s.Ready) :
    State.Inv { s with busy := true, rx := { s.rx with state := .hunt } } :=
  { h with
    busy_iff := by simp
    one_request := .inr (h.idle_of_not_busy hready.2).2
    rx_count := nofun
    rx_head := nofun
    in_reset := fun hr => by simp [hready.1] at hr }

/-- WRITE at issue: TX sends a frame of one shape from its first byte, RX is IDLE. -/
theorem start_write (h : s.Inv) (hready : s.Ready) {m : Message} (hm : m.valid = true) (buf : Vector Byte 19) :
    State.Inv { s with tx := ⟨.send, buf, txLen m, 0⟩, busy := true } :=
  { h with
    busy_iff := by simp
    one_request := .inl (h.idle_of_not_busy hready.2).1
    tx_length := fun _ => by
      simp only [txLen_val hm]
      cases m.shape
      · exact .inl rfl
      · exact .inr rfl
    tx_index := fun _ => by
      have hlen := m.shape.messageLength_ge
      simp only [txLen_val hm, Fin.val_zero]
      omega
    in_reset := fun hr => by simp [hready.1] at hr }

/-- A wire frame is a burst of link steps; a request ends, or starts an RX_READ or a WRITE. -/
theorem after_exec (h : s.Inv) {i : Instr} (e : exec i s = .next t) : t.Inv := by
  cases hi : i.isWire with
  | true => rw [exec_wire hi] at e; exact h.after_linkBurst e
  | false =>
    have hready := exec_host_next hi e
    rcases exec_host_cases hi e with ⟨r, hv, et⟩ | ⟨_, et⟩ | ⟨m, _, hm, et⟩ <;> rw [et]
    · exact (h.with_settings hready.2 t.rxShape t.swb t.wpb (h.sw_payload_exec hi e) (h.wp_payload_exec hi e)).after_finish
        hready.1 hv
    · exact h.start_read hready
    · exact h.start_write hready hm _

/-! ### Moves and steps -/

theorem after_stepEvent (h : s.Inv) {ev : Event} (e : stepEvent ev s = .next t) : t.Inv := by
  cases ev with
  | request bs =>
    cases hd : decodeRequest bs with
    | ok i => rw [stepEvent_request hd] at e; exact h.after_exec e
    | error why => simp only [stepEvent, hd] at e; cases e
  | frame bs =>
    cases hd : decodeFrame bs with
    | ok i => rw [stepEvent_frame hd] at e; exact h.after_exec e
    | error why => simp only [stepEvent, hd] at e; exact h.after_linkBurst e
  | readCfg => cases e; exact h.with_environment _ s.held s.sent s.agenda
  | readStatus => cases e; exact h.with_environment _ s.held s.sent s.agenda
  | assertReset moved => cases e; exact h.after_assertReset moved
  | releaseReset => cases e; exact h.after_releaseReset
  | arrive b => cases e; exact h.with_environment s.reads _ s.sent s.agenda
  | offer => exact h.after_linkOffer e
  | accept => exact h.after_linkAccept e
  | linkError => cases e; exact h.after_linkError

theorem after_step (h : s.Inv) (e : step s = .next t) : t.Inv := by
  cases ha : s.agenda with
  | nil => rw [step_nil ha] at e; cases e; exact h
  | cons ev rest => rw [step_cons ha] at e; exact (h.with_environment s.reads s.held s.sent rest).after_stepEvent e

end State.Inv

/-- Settles O54: the head of the agenda is taken off, which the invariant does not speak of, and its move keeps it. -/
theorem stepKeepsInv : Obligations.StepKeepsInv := fun _ _ h e => h.after_step e

end Sys2Proof.Machine

/-! PROOFS. The statements of 10_state.md: the frames of the computing, the setting and the wire rows; the rules that every step
keeps about `STATUS.ERR`, the builders and `CFG`; no fault under the invariant; register reads; reset values. -/

namespace Sys2Proof.Machine

/-! ### Frames of the host requests -/

/-- A request whose effect is a next state answers with no other. -/
theorem eq_of_take_next {s t u : State} (e : take s (.next u) = .next t) : t = u := by
  cases (take_next e).2; rfl

/-- The same of a format-HM request. -/
theorem eq_of_take_needMessage_next {s t u : State} {m : Message} (e : take s (needMessage m (.next u)) = .next t) :
    t = u := by
  cases (needMessage_next (take_next e).2).2; rfl

/-- Settles O24: each of the seven requests ends by `finish` on the state it was issued in. -/
theorem computingRequestsFrame : Obligations.ComputingRequestsFrame := by
  rintro i s t (⟨sh, c, d, p, rfl⟩ | ⟨p, d, rfl⟩ | ⟨m, rfl⟩ | ⟨sh, f, rfl⟩ | ⟨m, rfl⟩ | ⟨d, rfl⟩ | ⟨d, rfl⟩) e
  · exact ⟨_, eq_of_take_next e⟩
  · exact ⟨_, eq_of_take_next e⟩
  · exact ⟨_, eq_of_take_needMessage_next e⟩
  · exact ⟨_, eq_of_take_next e⟩
  · exact ⟨_, eq_of_take_needMessage_next e⟩
  · exact ⟨_, eq_of_take_next e⟩
  · exact ⟨_, eq_of_take_next e⟩

/-- Settles O25: each of the six requests ends by `finish` on the state with its own element written; WP_SET of an integer out of
range on the state as it was. -/
theorem settingRequestsFrame : Obligations.SettingRequestsFrame := by
  intro s t
  refine ⟨?_, ?_, fun sh e => eq_of_take_next e⟩
  · rintro i (⟨sh, rfl⟩ | rfl | rfl) e <;> (cases eq_of_take_next e; exact ⟨_, rfl⟩)
  · rintro i (⟨sh, rfl⟩ | ⟨n, rfl⟩) e
    · cases eq_of_take_next e; exact ⟨_, rfl⟩
    · have ht := eq_of_take_next e
      split at ht <;> (cases ht; exact ⟨_, rfl⟩)

/-! ### Frames of the wire rows -/

/-- Offers change nothing while no RX_READ is in flight or reset is asserted. -/
theorem linkOffers_waits {s : State} (h : s.rx.state = .idle ∨ s.resetInput = true) (n : Nat) :
    linkOffers n s = .next s := by
  have hoffer : linkOffer s = .next s := by
    rcases linkOffer_cases s with ⟨_, e⟩ | ⟨hr, hs, _⟩ | ⟨hr, hs, _⟩
    · exact e
    · simp [hr, hs] at h
    · simp [hr, hs] at h
  induction n with
  | zero => rfl
  | succ n ih => simp only [linkOffers, hoffer, ih]

/-- The bytes of a burst wait in the Link then (44_link_write.md R103, 70_reset_and_hazards.md R124). -/
theorem linkBurst_waits {s : State} (h : s.rx.state = .idle ∨ s.resetInput = true) (bs : Bytes) :
    linkBurst bs s = .next { s with held := s.held ++ bs } :=
  linkOffers_waits (s := { s with held := s.held ++ bs }) h _

/-- Settles O38: a wire frame is the burst of its bytes, and none of them is taken. -/
theorem wireFramesWaitInLink : Obligations.WireFramesWaitInLink :=
  fun _ s hwire h => (exec_wire hwire s).trans (linkBurst_waits h _)

/-- Settles O27: what no offer writes, no burst writes; in IDLE the burst only joins the held bytes. -/
theorem wireFramesFrame : Obligations.WireFramesFrame := by
  intro i s t hwire e
  rw [exec_wire hwire] at e
  obtain ⟨hshape, hswb, hwpb, htx, hsent, hreads, hreset, hagenda, hdraws⟩ := linkOffers_frame e
  refine ⟨hshape, hswb, hwpb, htx, hsent, hreads, hreset, hagenda, hdraws, fun hidle => ?_⟩
  rw [linkBurst_waits (.inl hidle)] at e
  cases e
  exact ⟨rfl, rfl, rfl, rfl⟩

/-! ### A frame move is a burst -/

theorem commandRow_isWire (c : Byte) (p : Bytes) (d0 d1 k t : Byte) : (commandRow c p d0 d1 k t).isWire = true := by
  unfold commandRow
  split_ifs <;> rfl

theorem decodeFrame_isWire {bs : Bytes} {i : Instr} (h : decodeFrame bs = .ok i) : i.isWire = true := by
  unfold decodeFrame at h
  split_ifs at h <;> cases h
  · rfl
  · exact commandRow_isWire ..

/-- Whether its bytes decode or not, a frame move is a burst of bytes. -/
theorem stepEvent_frame_burst (bs : Bytes) (s : State) : ∃ burst, stepEvent (.frame bs) s = linkBurst burst s := by
  cases hd : decodeFrame bs with
  | ok i => exact ⟨encode i, (stepEvent_frame hd s).trans (exec_wire (decodeFrame_isWire hd) s)⟩
  | error why => exact ⟨bs, by simp only [stepEvent, hd]⟩

theorem stepEvent_request_next {bs : Bytes} {s t : State} (e : stepEvent (.request bs) s = .next t) :
    ∃ i, decodeRequest bs = .ok i ∧ exec i s = .next t := by
  cases hd : decodeRequest bs with
  | ok i => exact ⟨i, rfl, (stepEvent_request hd s).symm.trans e⟩
  | error why => simp only [stepEvent, hd] at e; cases e

/-- One offer is a run of one. -/
theorem linkOffers_one_of_next {s t : State} (e : linkOffer s = .next t) : linkOffers 1 s = .next t := by
  simp only [linkOffers, e]

/-! ### `STATUS.ERR` and the Results -/

/-- From `s` to `t` no Result was returned and `STATUS.ERR` kept, or one was returned, `STATUS.ERR` is its code and `BUSY` is 0
(10_state.md R22, R23). -/
def StatusFollowsResults (s t : State) : Prop :=
  (t.results = s.results ∧ t.err = s.err) ∨ ∃ r : Result, t.results = s.results ++ [r] ∧ t.err = r.code ∧ t.busy = false

namespace StatusFollowsResults

variable {s t : State}

theorem of_linkOffers {n : Nat} (e : linkOffers n s = .next t) : StatusFollowsResults s t := by
  rcases linkOffers_results e with ⟨hresults, herr, _⟩ | ⟨r, hresults, herr, hbusy, _⟩
  · exact .inl ⟨hresults, herr⟩
  · exact .inr ⟨r, hresults, herr, hbusy⟩

theorem of_linkBurst {bs : Bytes} (e : linkBurst bs s = .next t) : StatusFollowsResults s t :=
  of_linkOffers (s := { s with held := s.held ++ bs }) e

theorem of_linkAccept (e : linkAccept s = .next t) : StatusFollowsResults s t := by
  rcases linkAccept_cases s with ⟨_, e'⟩ | ⟨_, _, _, _, e'⟩ | ⟨_, _, _, _, e'⟩ | ⟨_, _, _, e'⟩ <;> rw [e'] at e <;> cases e
  · exact .inl ⟨rfl, rfl⟩
  · exact .inr ⟨_, rfl, rfl, rfl⟩
  · exact .inl ⟨rfl, rfl⟩

theorem of_linkError (s : State) : StatusFollowsResults s (linkError s) := by
  rcases linkError_cases s with ⟨_, e⟩ | ⟨_, _, e⟩ | ⟨_, _, _, e⟩ <;> rw [e]
  · exact .inl ⟨rfl, rfl⟩
  · exact .inr ⟨_, rfl, rfl, rfl⟩
  · exact .inr ⟨_, rfl, rfl, rfl⟩

/-- A request that ends at issue was taken at `BUSY` = 0 and leaves it. -/
theorem of_exec {i : Instr} (e : exec i s = .next t) : StatusFollowsResults s t := by
  cases hi : i.isWire with
  | true => rw [exec_wire hi] at e; exact of_linkBurst e
  | false =>
    rcases exec_host_cases hi e with ⟨r, _, et⟩ | ⟨_, et⟩ | ⟨m, _, _, et⟩ <;> rw [et]
    · exact .inr ⟨r, rfl, rfl, (exec_host_next hi e).2⟩
    · exact .inl ⟨rfl, rfl⟩
    · exact .inl ⟨rfl, rfl⟩

end StatusFollowsResults

theorem assertReset_status (moved : Bool) (s : State) :
    (assertReset moved s).results = s.results ∧ ((assertReset moved s).err = s.err ∨ (assertReset moved s).err = 0) := by
  rcases assertReset_cases moved s with ⟨_, e⟩ | ⟨_, _, e⟩ | ⟨_, _, e⟩ <;> rw [e]
  · exact ⟨rfl, .inl rfl⟩
  · exact ⟨rfl, .inr rfl⟩
  · exact ⟨rfl, .inr rfl⟩

theorem releaseReset_status (s : State) :
    (releaseReset s).results = s.results ∧ ((releaseReset s).err = s.err ∨ (releaseReset s).err = 0) := by
  rcases releaseReset_cases s with ⟨_, e⟩ | ⟨_, e⟩ <;> rw [e]
  · exact ⟨rfl, .inl rfl⟩
  · exact ⟨rfl, .inr rfl⟩

/-- Every move but a reset lets `STATUS.ERR` follow the Results; a reset returns none, and clears `STATUS.ERR` if it does
anything. -/
theorem stepEvent_status {ev : Event} {s t : State} (e : stepEvent ev s = .next t) :
    StatusFollowsResults s t ∨
      (ev = .releaseReset ∨ ∃ moved, ev = .assertReset moved) ∧ t.results = s.results ∧ (t.err = s.err ∨ t.err = 0) := by
  cases ev with
  | request bs => obtain ⟨i, _, e⟩ := stepEvent_request_next e; exact .inl (.of_exec e)
  | frame bs => obtain ⟨burst, eb⟩ := stepEvent_frame_burst bs s; exact .inl (.of_linkBurst (eb.symm.trans e))
  | readCfg => cases e; exact .inl (.inl ⟨rfl, rfl⟩)
  | readStatus => cases e; exact .inl (.inl ⟨rfl, rfl⟩)
  | assertReset moved => cases e; exact .inr ⟨.inr ⟨moved, rfl⟩, assertReset_status moved s⟩
  | releaseReset => cases e; exact .inr ⟨.inl rfl, releaseReset_status s⟩
  | arrive b => cases e; exact .inl (.inl ⟨rfl, rfl⟩)
  | offer => exact .inl (.of_linkOffers (linkOffers_one_of_next e))
  | accept => exact .inl (.of_linkAccept e)
  | linkError => cases e; exact .inl (.of_linkError s)

/-- Settles O50: the head of the agenda is taken off, which returns nothing, and its move keeps the rule. -/
theorem statusRecordsLastResult : Obligations.StatusRecordsLastResult := by
  intro s t e
  cases ha : s.agenda with
  | nil => rw [step_nil ha] at e; cases e; exact .inl ⟨rfl, .inl rfl⟩
  | cons ev rest =>
    rw [step_cons ha] at e
    rcases stepEvent_status e with (⟨hresults, herr⟩ | hone) | ⟨hreset, hresults, herr⟩
    · exact .inl ⟨hresults, .inl herr⟩
    · exact .inr hone
    · refine .inl ⟨hresults, herr.imp_right fun h0 => ⟨h0, rest, ?_⟩⟩
      rcases hreset with rfl | ⟨moved, rfl⟩
      · exact .inl rfl
      · exact .inr ⟨moved, rfl⟩

/-! ### The builders and `CFG.RX_SHAPE` -/

/-- Both builders and `CFG.RX_SHAPE` kept from `s` to `t`. -/
def SameSettings (s t : State) : Prop := t.swb = s.swb ∧ t.wpb = s.wpb ∧ t.rxShape = s.rxShape

/-- A request that sets one of the builders or `CFG.RX_SHAPE` took `s` to `t`, and the other two kept. -/
def SetsItsOwn (i : Instr) (s t : State) : Prop :=
  (t.wpb = s.wpb ∧ t.rxShape = s.rxShape ∧ (i = .swSleep ∨ i = .swWake ∨ ∃ sh, i = .swNew sh)) ∨
  (t.swb = s.swb ∧ t.rxShape = s.rxShape ∧ ((∃ n, i = .wpSet n) ∨ ∃ sh, i = .wpNew sh)) ∨
  (t.swb = s.swb ∧ t.wpb = s.wpb ∧ ∃ sh, i = .rxConfig sh)

/-- Only RX_CONFIG writes `CFG.RX_SHAPE` among the host requests (10_state.md R25). -/
theorem exec_host_rxShape {i : Instr} (h : i.isWire = false) {s t : State} (e : exec i s = .next t) :
    t.rxShape = s.rxShape ∨ ∃ sh, i = .rxConfig sh := by
  cases i
  case rxConfig sh => exact .inr ⟨sh, rfl⟩
  case wpSet n =>
    have ht := eq_of_take_next e
    split at ht <;> (cases ht; exact .inl rfl)
  case serialize m | measDecode m | write m => cases eq_of_take_needMessage_next e; exact .inl rfl
  case msgNew | checksum | frameParse | rxRead | swNew | swSleep | swWake | swBuild | wpNew | wpBuild =>
    cases eq_of_take_next e; exact .inl rfl
  all_goals cases h

theorem exec_host_settings {i : Instr} (h : i.isWire = false) {s t : State} (e : exec i s = .next t) :
    SameSettings s t ∨ SetsItsOwn i s t := by
  rcases exec_host_rxShape h e with hshape | ⟨sh, rfl⟩
  · rcases exec_host_builders h e with
      ⟨hswb, hwpb⟩ | ⟨hwpb, ⟨sh, hi, _⟩ | ⟨hi, _⟩ | ⟨hi, _⟩⟩ | ⟨hswb, ⟨sh, hi, _⟩ | ⟨n, hi, _⟩⟩
    · exact .inl ⟨hswb, hwpb, hshape⟩
    · exact .inr (.inl ⟨hwpb, hshape, .inr (.inr ⟨sh, hi⟩)⟩)
    · exact .inr (.inl ⟨hwpb, hshape, .inl hi⟩)
    · exact .inr (.inl ⟨hwpb, hshape, .inr (.inl hi)⟩)
    · exact .inr (.inr (.inl ⟨hswb, hshape, .inr ⟨sh, hi⟩⟩))
    · exact .inr (.inr (.inl ⟨hswb, hshape, .inl ⟨n, hi⟩⟩))
  · cases eq_of_take_next e
    exact .inr (.inr (.inr ⟨rfl, rfl, sh, rfl⟩))

namespace SameSettings

variable {s t : State}

theorem of_linkOffers {n : Nat} (e : linkOffers n s = .next t) : SameSettings s t := by
  obtain ⟨hshape, hswb, hwpb, _⟩ := linkOffers_frame e
  exact ⟨hswb, hwpb, hshape⟩

theorem of_linkBurst {bs : Bytes} (e : linkBurst bs s = .next t) : SameSettings s t :=
  of_linkOffers (s := { s with held := s.held ++ bs }) e

theorem of_linkAccept (e : linkAccept s = .next t) : SameSettings s t := by
  rcases linkAccept_cases s with ⟨_, e'⟩ | ⟨_, _, _, _, e'⟩ | ⟨_, _, _, _, e'⟩ | ⟨_, _, _, e'⟩ <;> rw [e'] at e <;> cases e
  all_goals exact ⟨rfl, rfl, rfl⟩

theorem of_linkError (s : State) : SameSettings s (linkError s) := by
  rcases linkError_cases s with ⟨_, e⟩ | ⟨_, _, e⟩ | ⟨_, _, _, e⟩ <;> rw [e]
  all_goals exact ⟨rfl, rfl, rfl⟩

end SameSettings

/-- What a move can do to the builders and `CFG.RX_SHAPE`: nothing, unless it is a reset or a request that sets one of them. -/
theorem stepEvent_settings {ev : Event} {s t : State} (e : stepEvent ev s = .next t) :
    SameSettings s t ∨ (ev = .releaseReset ∨ ∃ moved, ev = .assertReset moved) ∨
      ∃ bs i, ev = .request bs ∧ decodeRequest bs = .ok i ∧ SetsItsOwn i s t := by
  cases ev with
  | request bs =>
    obtain ⟨i, hd, e⟩ := stepEvent_request_next e
    cases hi : i.isWire with
    | true => rw [exec_wire hi] at e; exact .inl (.of_linkBurst e)
    | false => exact (exec_host_settings hi e).imp_right fun hset => .inr ⟨bs, i, rfl, hd, hset⟩
  | frame bs => obtain ⟨burst, eb⟩ := stepEvent_frame_burst bs s; exact .inl (.of_linkBurst (eb.symm.trans e))
  | readCfg => cases e; exact .inl ⟨rfl, rfl, rfl⟩
  | readStatus => cases e; exact .inl ⟨rfl, rfl, rfl⟩
  | assertReset moved => exact .inr (.inl (.inr ⟨moved, rfl⟩))
  | releaseReset => exact .inr (.inl (.inl rfl))
  | arrive b => cases e; exact .inl ⟨rfl, rfl, rfl⟩
  | offer => exact .inl (.of_linkOffers (linkOffers_one_of_next e))
  | accept => exact .inl (.of_linkAccept e)
  | linkError => cases e; exact .inl (.of_linkError s)

/-- Settles O51: the head of the agenda is taken off, and its move writes no more than it may. -/
theorem onlyTheirRequestsWriteBuilders : Obligations.OnlyTheirRequestsWriteBuilders := by
  intro s t e
  cases ha : s.agenda with
  | nil => rw [step_nil ha] at e; cases e; exact .inl ⟨rfl, rfl, rfl⟩
  | cons ev rest =>
    rw [step_cons ha] at e
    rcases stepEvent_settings e with hsame | (rfl | ⟨moved, rfl⟩) | ⟨bs, i, rfl, hd, hset⟩
    · exact .inl hsame
    · exact .inr (.inl ⟨rest, .inl rfl⟩)
    · exact .inr (.inl ⟨rest, .inr ⟨moved, rfl⟩⟩)
    · exact .inr (.inr ⟨bs, rest, i, rfl, hd, hset⟩)

/-! ### No fault -/

theorem take_ne_fault {s : State} {effect : Out} {r : Fault} (h : effect ≠ .fault r) : take s effect ≠ .fault r := by
  unfold take
  split_ifs
  · nofun
  · nofun
  · exact h

theorem needMessage_ne_fault {m : Message} {effect : Out} {r : Fault} (h : effect ≠ .fault r) :
    needMessage m effect ≠ .fault r := by
  unfold needMessage
  split_ifs
  · exact h
  · nofun

/-- A host request is refused or answers a next state. -/
theorem exec_host_ne_fault {i : Instr} (h : i.isWire = false) (s : State) (r : Fault) : exec i s ≠ .fault r := by
  cases i
  case serialize m | measDecode m | write m => exact take_ne_fault (needMessage_ne_fault nofun)
  case msgNew | checksum | frameParse | rxConfig | rxRead | swNew | swSleep | swWake | swBuild | wpNew | wpSet | wpBuild =>
    exact take_ne_fault nofun
  all_goals cases h

namespace State.Inv

variable {s : State}

/-- In COLLECT the count stays below the frame length, so it is an index of `RX.buf` (10_state.md R21). -/
theorem linkOffer_ne_fault (h : s.Inv) (r : Fault) : linkOffer s ≠ .fault r := by
  rcases linkOffer_cases s with ⟨_, e⟩ | ⟨_, _, b, rest, _, e⟩ | ⟨_, hs, b, rest, _, e⟩ <;> rw [e]
  · nofun
  · nofun
  · have hcount := (h.rx_count hs).2
    have hlength := s.rxShape.messageLength_le
    rcases collectStep_cases b { s with held := rest } with ⟨_, _, e'⟩ | ⟨_, _, e'⟩ | ⟨hout, _⟩
    · rw [e']; nofun
    · rw [e']; nofun
    · exact absurd hout (by simp only; omega)

theorem linkOffers_ne_fault (h : s.Inv) (n : Nat) (r : Fault) : linkOffers n s ≠ .fault r := by
  induction n generalizing s with
  | zero => nofun
  | succ n ih =>
    cases e : linkOffer s with
    | next t => simpa only [linkOffers, e] using ih (h.after_linkOffer e)
    | fault r' => exact absurd e (h.linkOffer_ne_fault r')
    | refused r' => simp only [linkOffers, e]; nofun

theorem linkBurst_ne_fault (h : s.Inv) (bs : Bytes) (r : Fault) : linkBurst bs s ≠ .fault r :=
  (h.with_environment s.reads (s.held ++ bs) s.sent s.agenda).linkOffers_ne_fault _ r

/-- In SEND the index stays below the frame length, so it is an index of `TX.buf` (10_state.md R21). -/
theorem linkAccept_ne_fault (h : s.Inv) (r : Fault) : linkAccept s ≠ .fault r := by
  rcases linkAccept_cases s with ⟨_, e⟩ | ⟨_, _, _, _, e⟩ | ⟨_, _, _, _, e⟩ | ⟨_, hs, hout, _⟩
  · rw [e]; nofun
  · rw [e]; nofun
  · rw [e]; nofun
  · have hindex := h.tx_index hs
    have hlength := s.tx.len.isLt
    omega

theorem exec_ne_fault (h : s.Inv) (i : Instr) (r : Fault) : exec i s ≠ .fault r := by
  cases hi : i.isWire with
  | true => rw [exec_wire hi]; exact h.linkBurst_ne_fault _ r
  | false => exact exec_host_ne_fault hi s r

theorem stepEvent_ne_fault (h : s.Inv) (ev : Event) (r : Fault) : stepEvent ev s ≠ .fault r := by
  cases ev with
  | request bs =>
    cases hd : decodeRequest bs with
    | ok i => rw [stepEvent_request hd]; exact h.exec_ne_fault i r
    | error why => simp only [stepEvent, hd]; nofun
  | frame bs => obtain ⟨burst, eb⟩ := stepEvent_frame_burst bs s; rw [eb]; exact h.linkBurst_ne_fault _ r
  | offer => exact h.linkOffer_ne_fault r
  | accept => exact h.linkAccept_ne_fault r
  | readCfg | readStatus | assertReset | releaseReset | arrive | linkError => nofun

end State.Inv

/-- Settles O55: the head of the agenda is taken off, which the invariant does not speak of, and its move does not fault. -/
theorem noFaultUnderInv : Obligations.NoFaultUnderInv := by
  intro s r h
  cases ha : s.agenda with
  | nil => rw [step_nil ha]; nofun
  | cons ev rest => rw [step_cons ha]; exact (h.with_environment s.reads s.held s.sent rest).stepEvent_ne_fault ev r

/-! ### Register reads -/

theorem cfg_eq (s : State) : s.cfg = if s.rxShape = .command then 0x01 else 0x00 := by
  unfold State.cfg
  cases s.rxShape <;> rfl

/-- Bits written side by side are the number of the higher ones, shifted, plus the number of the lower ones. -/
theorem toNat_append_eq_add {m n : Nat} (x : BitVec m) (y : BitVec n) :
    (x ++ y).toNat = x.toNat * 2 ^ n + y.toNat := by
  rw [BitVec.toNat_append, ← Nat.shiftLeft_add_eq_or_of_lt y.isLt, Nat.shiftLeft_eq]

/-- `STATUS` is the sum of its fields at their places (10_state.md R26). -/
theorem status_toNat (s : State) : s.status.toNat =
    s.rx.state.code.toNat + 4 * s.tx.state.code.toNat + 8 * s.busy.toNat + 16 * s.err.toNat := by
  simp only [State.status, toNat_append_eq_add, BitVec.toNat_ofBool, BitVec.toNat_ofNat]
  omega

theorem status_eq (s : State) : s.status =
    BitVec.ofNat 8 (s.rx.state.code.toNat + 4 * s.tx.state.code.toNat + 8 * s.busy.toNat + 16 * s.err.toNat) := by
  rw [← status_toNat, BitVec.ofNat_toNat, BitVec.setWidth_eq]

/-- Settles O45: a read records the register's value and writes nothing else; the value of `STATUS` is looked up field by field. -/
theorem hostReadsRegisters : Obligations.HostReadsRegisters := by
  refine fun s later => ⟨fun ha => ?_, fun ha => ?_⟩
  · rw [step_cons ha, ← cfg_eq]; rfl
  · rw [step_cons ha]
    simp only [stepEvent, hostRead]
    congr 4
    refine congrArg (Prod.mk HostReg.status) ((status_eq s).trans ?_)
    cases s.rx.state <;> cases s.tx.state <;> cases s.busy <;> rfl

/-! ### Reset values -/

/-- Settles O47: the reset state as it is written, and the registers read off it. -/
theorem resetValues : Obligations.ResetValues :=
  ⟨rfl, rfl, Builder.fresh_buf_toList .., rfl, Builder.fresh_buf_toList .., rfl, rfl, rfl, rfl, rfl, rfl⟩

/-- Settles O53: both engines are IDLE, so the clauses on COLLECT and SEND ask nothing; the builders hold their query payloads. -/
theorem invAtReset : Obligations.InvAtReset where
  busy_iff := by decide
  one_request := .inl rfl
  rx_count := nofun
  rx_head := nofun
  tx_length := nofun
  tx_index := nofun
  err_code := by decide
  sw_payload := .inl (Builder.fresh_swPayload _)
  wp_payload := .inl (Builder.fresh_wpPayload _)
  results_valid := nofun
  in_reset := nofun

end Sys2Proof.Machine

/-! PROOFS. The statements of 20_memory.md: a wire row is the run of the link steps of its bytes. -/

namespace Sys2Proof.Machine

/-- A burst of bytes is its arrivals one by one, then the offers of all the Link then holds, and the moves that come later stay
on the agenda. -/
theorem linkBurst_eq_runSteps (bs : Bytes) (s : State) :
    linkBurst bs s = runSteps (bs.length + (s.held.length + bs.length))
      { s with agenda := bs.map .arrive ++ (List.replicate (s.held.length + bs.length) .offer ++ s.agenda) } := by
  have offers := runSteps_offers (s.held.length + bs.length) s.agenda { s with held := s.held ++ bs }
  have later := linkOffers_agenda s.agenda (s.held.length + bs.length) { s with held := s.held ++ bs }
  rw [runSteps_arrivals]
  exact later.trans offers.symm

/-- Settles O39: a wire frame is the burst of its bytes, and a burst is a run of link steps. -/
theorem wireFrameIsRunOfLinkSteps : Obligations.WireFrameIsRunOfLinkSteps := by
  rintro i s _ hwire rfl
  rw [exec_wire hwire, linkBurst_eq_runSteps, List.append_assoc]

end Sys2Proof.Machine

/-! PROOFS. The statements of 30_encoding.md: what each operand field spells, what a frame's bytes decode to, round trips both
ways and reserved requests; the frames of the builders; an RX_READ that takes a whole frame; register fields, the bytes of a
Result, pseudo-requests. -/

namespace Sys2Proof

open Machine

/-! ### Fields and the bytes that spell them -/

namespace Decode

/-- The bytes `u` spell the value `a` of a field: read off the front of any bytes they give `a` and what is behind them, and cut
short anywhere they are a truncated field (30_encoding.md R58, R66). -/
structure Spells {α : Type} (read : Bytes → Field α) (u : Bytes) (a : α) : Prop where
  whole : ∀ rest, read (u ++ rest) = .ok (a, rest)
  cut : ∀ k < u.length, read (u.take k) = .error .truncated

namespace Spells

variable {α β : Type}

/-- No field is spelled by no bytes. -/
theorem pure (a : α) : Spells (fun bs => .ok (a, bs)) [] a := ⟨fun _ => rfl, nofun⟩

/-- A field behind another: what spells the two together. -/
theorem bind {read : Bytes → Field α} {next : α × Bytes → Field β} {u v : Bytes} {a : α} {b : β} (hu : Spells read u a)
    (hv : Spells (fun bs => next (a, bs)) v b) : Spells (fun bs => (read bs).bind next) (u ++ v) b where
  whole rest := by
    simp only [List.append_assoc, hu.whole]
    exact hv.whole rest
  cut k hk := by
    by_cases hin : k < u.length
    · have hfirst : (u ++ v).take k = u.take k := List.take_append_of_le_length hin.le
      simp only [hfirst, hu.cut k hin]
      rfl
    · have hboth : (u ++ v).take k = u ++ v.take (k - u.length) := by
        rw [List.take_append, List.take_of_length_le (not_lt.1 hin)]
      simp only [hboth, hu.whole]
      exact hv.cut _ (by rw [List.length_append] at hk; omega)

/-- A last field, with the value made of it. -/
theorem last {read : Bytes → Field α} {make : α → β} {u : Bytes} {a : α} (h : Spells read u a) :
    Spells (fun bs => (read bs).bind fun x => .ok (make x.1, x.2)) u (make a) := by
  simpa using h.bind (next := fun x => .ok (make x.1, x.2)) (Spells.pure (make a))

theorem byteField (b : Byte) : Spells Decode.byteField [b] b where
  whole := byteField_cons b
  cut k hk := by rw [List.length_singleton, Nat.lt_one_iff] at hk; rw [hk]; rfl

theorem shapeField (sh : Shape) : Spells Decode.shapeField [sh.toByte] sh where
  whole := shapeField_toByte sh
  cut k hk := by rw [List.length_singleton, Nat.lt_one_iff] at hk; rw [hk]; rfl

theorem bytesField (u : Bytes) : Spells (Decode.bytesField u.length) u u where
  whole := bytesField_append rfl
  cut k hk := by
    have hshort : (u.take k).length < u.length := by rw [List.length_take]; omega
    rw [Decode.bytesField, if_pos hshort]

theorem listField {l : Bytes} (h : listFits l = true) : Spells Decode.listField (Encode.list l) l where
  whole := listField_list h
  cut
    | 0, _ => rfl
    | k + 1, hk => by
      have hl := (listFits_iff l).1 h
      have hn : (BitVec.ofNat 8 l.length).toNat = l.length := by rw [BitVec.toNat_ofNat]; omega
      have hfits : ¬Config.maxOperandLen < l.length := not_lt.2 hl
      simp only [Decode.listField, Encode.list, List.take_succ_cons, listFieldUpTo, hn, if_neg hfits]
      exact (bytesField l).cut k (Nat.lt_of_succ_lt_succ hk)

theorem intField {n : Int} (h : intFits n = true) : Spells Decode.intField (intBytes n) n := by
  have hread := (bytesField (intBytes n)).last (make := intOfBytes)
  rw [intOfBytes_intBytes h] at hread
  exact hread

theorem messageField {m : Message} (hd : listFits m.deviceId = true) (hp : listFits m.payload = true) :
    Spells Decode.messageField (Encode.message m) m := by
  have hbytes : Encode.message m =
      [m.shape.toByte] ++ ([m.commandId] ++ (Encode.list m.deviceId ++ Encode.list m.payload)) := by
    simp [Encode.message]
  rw [hbytes]
  exact (shapeField m.shape).bind ((byteField m.commandId).bind ((listField hd).bind (listField hp).last))

theorem message_of_valid {m : Message} (h : m.valid = true) : Spells Decode.messageField (Encode.message m) m :=
  messageField (valid_listFits h).1 (valid_listFits h).2

/-- An opcode byte and what spells its operand fields spell the request. -/
theorem request {op : Byte} {u : Bytes} {i : Instr} (h : Spells (operands op) u i) : Spells requestFront (op :: u) i where
  whole := h.whole
  cut
    | 0, _ => rfl
    | k + 1, hk => h.cut k (Nat.lt_of_succ_lt_succ hk)

/-- A well-formed host request is spelled by its encoding (30_encoding.md R60, R61). -/
theorem encode_of_wf {i : Instr} (hwf : i.wf = true) (hhost : i.isWire = false) :
    Spells requestFront (encode i) i := by
  cases i with
  | msgNew sh c d p =>
    obtain ⟨hd, hp⟩ := Bool.and_eq_true_iff.1 hwf
    exact request ((messageField (m := ⟨sh, c, d, p⟩) hd hp).last
      (make := fun m : Message => Instr.msgNew m.shape m.commandId m.deviceId m.payload))
  | checksum p d =>
    obtain ⟨hp, hd⟩ := Bool.and_eq_true_iff.1 hwf
    exact request ((listField hp).bind (listField hd).last)
  | serialize m => exact request (message_of_valid hwf).last
  | frameParse sh f => exact request ((shapeField sh).bind (listField hwf).last)
  | rxConfig sh => exact request (shapeField sh).last
  | rxRead => exact request (.pure _)
  | measDecode m => exact request (message_of_valid hwf).last
  | write m => exact request (message_of_valid hwf).last
  | swNew sh => exact request (shapeField sh).last
  | swSleep => exact request (.pure _)
  | swWake => exact request (.pure _)
  | swBuild d => exact request (listField hwf).last
  | wpNew sh => exact request (shapeField sh).last
  | wpSet n => exact request (intField hwf).last
  | wpBuild d => exact request (listField hwf).last
  | wireResponse | wireCommand | wireSwQuery | wireSwSleep | wireSwWake | wireWpQuery | wireWpSet => cases hhost

end Spells

end Decode

theorem decodeRequest_encode {i : Instr} (hwf : i.wf = true) (hhost : i.isWire = false) :
    decodeRequest (encode i) = .ok i := by
  have hfront := (Decode.Spells.encode_of_wf hwf hhost).whole []
  rw [List.append_nil] at hfront
  rw [decodeRequest, hfront]
  rfl

theorem decodeRequest_truncated {i : Instr} (hwf : i.wf = true) (hhost : i.isWire = false) {k : Nat}
    (hk : k < (encode i).length) : decodeRequest ((encode i).take k) = .error .truncated := by
  rw [decodeRequest, (Decode.Spells.encode_of_wf hwf hhost).cut k hk]
  rfl

/-! ### What a frame's bytes decode to -/

/-- Ten bytes behind the head are a response frame (30_encoding.md R51). -/
theorem decodeFrame_response (c p0 p1 p2 p3 d0 d1 k t : Byte) :
    decodeFrame (frameBytes c [p0, p1, p2, p3] [d0, d1] k t) = .ok (.wireResponse c p0 p1 p2 p3 d0 d1 k t) := rfl

/-- Byte 2 and up of a frame are its payload. -/
theorem slice_frameBytes_payload {c k t : Byte} {p d : Bytes} {n : Nat} (hp : p.length = n) :
    slice (frameBytes c p d k t) 2 (2 + n) = p := by
  subst hp
  simp [slice, frameBytes]

/-- Behind the payload stands the device id. -/
theorem slice_frameBytes_deviceId {c k t : Byte} {p d : Bytes} {n : Nat} (hp : p.length = n) (hd : d.length = 2) :
    slice (frameBytes c p d k t) (2 + n) (4 + n) = d := by
  subst hp
  have hwidth : 4 + p.length - (p.length + 2) = d.length := by omega
  simp [slice, frameBytes, Nat.add_comm 2, hwidth]

theorem getD_frameBytes_commandId (c k t : Byte) (p d : Bytes) : (frameBytes c p d k t).getD 1 0 = c := rfl

/-- The bytes behind a frame's payload, by their places. -/
theorem getD_frameBytes_behind (c d0 d1 k t : Byte) (p : Bytes) (j : Nat) :
    (frameBytes c p [d0, d1] k t).getD (2 + p.length + j) 0 = [d0, d1, k, t].getD j 0 := by
  have hsplit : frameBytes c p [d0, d1] k t = ([Config.head, c] ++ p) ++ [d0, d1, k, t] := by simp [frameBytes]
  rw [hsplit, List.getD_append_right _ _ _ _ (by simp; omega)]
  congr 1
  simp
  omega

/-- Nineteen bytes behind the head are a command frame (30_encoding.md R52). -/
theorem decodeFrame_command (c d0 d1 k t : Byte) {p : Bytes} (hp : p.length = 13) :
    decodeFrame (frameBytes c p [d0, d1] k t) = .ok (commandRow c p d0 d1 k t) := by
  have hlen : (frameBytes c p [d0, d1] k t).length = 19 := by simp [hp]
  have hbehind := getD_frameBytes_behind c d0 d1 k t p
  rw [hp] at hbehind
  have hd0 := hbehind 0
  have hd1 := hbehind 1
  have hk := hbehind 2
  have ht := hbehind 3
  simp only [decodeFrame, hlen, Shape.messageLength_response, Shape.messageLength_command, hd0, hd1, hk, ht]
  rw [getD_frameBytes_commandId, slice_frameBytes_payload hp]
  rfl

/-- Bytes of a frame's length with the head in front are a frame. -/
theorem exists_frameBytes {bs : Bytes} {n : Nat} (hhead : bs.head? = some Config.head) (hlen : bs.length = n + 6) :
    ∃ (c d0 d1 k t : Byte) (p : Bytes), p.length = n ∧ bs = frameBytes c p [d0, d1] k t := by
  obtain ⟨c, rest, rfl⟩ : ∃ c rest, bs = Config.head :: c :: rest := by
    match bs, hhead with
    | [_], _ => simp at hlen
    | _ :: c :: rest, hhead => cases hhead; exact ⟨c, rest, rfl⟩
  have hrest : rest.length = n + 4 := by simpa using hlen
  obtain ⟨d0, d1, k, t, hbehind⟩ := List.length_eq_four.1 (show (rest.drop n).length = 4 by simp [hrest])
  refine ⟨c, d0, d1, k, t, rest.take n, by simp [hrest], ?_⟩
  rw [← List.take_append_drop n rest, hbehind]
  simp [frameBytes, hrest]

theorem isBuilderFrame_iff {c t : Byte} {p : Bytes} :
    isBuilderFrame c p t = true ↔ (c = Config.builderCmdId ∧ t = Config.tail) ∧
      (p = swPayload 0 0 ∨ p = swPayload 1 0 ∨ p = swPayload 1 1 ∨ p = wpPayload 0 0 ∨ p = wpPayload 1 (p.getD 2 0)) := by
  simp only [isBuilderFrame, Bool.and_eq_true, Bool.or_eq_true, beq_iff_eq, or_assoc]

/-- Everything a command frame can be: a WIRE_COMMAND, when no builder spells it, or one of the five builder rows (30_encoding.md
R53, R54). -/
theorem commandRow_cases (c d0 d1 k t : Byte) (p : Bytes) :
    (isBuilderFrame c p t = false ∧ commandRow c p d0 d1 k t = .wireCommand c p d0 d1 k t) ∨
    (isBuilderFrame c p t = true ∧ c = Config.builderCmdId ∧ t = Config.tail ∧
      ((p = swPayload 0 0 ∧ commandRow c p d0 d1 k t = .wireSwQuery d0 d1 k) ∨
        (p = swPayload 1 0 ∧ commandRow c p d0 d1 k t = .wireSwSleep d0 d1 k) ∨
        (p = swPayload 1 1 ∧ commandRow c p d0 d1 k t = .wireSwWake d0 d1 k) ∨
        (p = wpPayload 0 0 ∧ commandRow c p d0 d1 k t = .wireWpQuery d0 d1 k) ∨
        ∃ n, p = wpPayload 1 n ∧ commandRow c p d0 d1 k t = .wireWpSet n d0 d1 k)) := by
  rw [← Bool.not_eq_true, isBuilderFrame_iff]
  unfold commandRow
  split_ifs with hends hsw0 hsw1 hsw2 hwp0 hwp1
  · exact .inr ⟨⟨hends, .inl hsw0⟩, hends.1, hends.2, .inl ⟨hsw0, rfl⟩⟩
  · exact .inr ⟨⟨hends, .inr (.inl hsw1)⟩, hends.1, hends.2, .inr (.inl ⟨hsw1, rfl⟩)⟩
  · exact .inr ⟨⟨hends, .inr (.inr (.inl hsw2))⟩, hends.1, hends.2, .inr (.inr (.inl ⟨hsw2, rfl⟩))⟩
  · exact .inr ⟨⟨hends, .inr (.inr (.inr (.inl hwp0)))⟩, hends.1, hends.2, .inr (.inr (.inr (.inl ⟨hwp0, rfl⟩)))⟩
  · exact .inr ⟨⟨hends, .inr (.inr (.inr (.inr hwp1)))⟩, hends.1, hends.2, .inr (.inr (.inr (.inr ⟨_, hwp1, rfl⟩)))⟩
  · exact .inl ⟨by simp only [hsw0, hsw1, hsw2, hwp0, hwp1, or_false, and_false, not_false_eq_true], rfl⟩
  · exact .inl ⟨fun hb => hends hb.1, rfl⟩

/-- The frame is the encoding of its row. -/
theorem encode_commandRow (c d0 d1 k t : Byte) (p : Bytes) :
    encode (commandRow c p d0 d1 k t) = frameBytes c p [d0, d1] k t := by
  rcases commandRow_cases c d0 d1 k t p with
    ⟨_, e⟩ | ⟨_, rfl, rfl, ⟨rfl, e⟩ | ⟨rfl, e⟩ | ⟨rfl, e⟩ | ⟨rfl, e⟩ | ⟨n, rfl, e⟩⟩ <;> rw [e] <;> rfl

theorem commandRow_wf (c d0 d1 k t : Byte) {p : Bytes} (hp : p.length = 13) : (commandRow c p d0 d1 k t).wf = true := by
  rcases commandRow_cases c d0 d1 k t p with
    ⟨hplain, e⟩ | ⟨_, _, _, ⟨_, e⟩ | ⟨_, e⟩ | ⟨_, e⟩ | ⟨_, e⟩ | ⟨_, _, e⟩⟩ <;> rw [e] <;> simp [Instr.wf, *]

theorem commandRow_plain {c t : Byte} {p : Bytes} (h : isBuilderFrame c p t = false) (d0 d1 k : Byte) :
    commandRow c p d0 d1 k t = .wireCommand c p d0 d1 k t := by
  rcases commandRow_cases c d0 d1 k t p with ⟨_, e⟩ | ⟨hb, _⟩
  · exact e
  · simp [h] at hb

theorem commandRow_wpSet (n d0 d1 k : Byte) :
    commandRow Config.builderCmdId (wpPayload 1 n) d0 d1 k Config.tail = .wireWpSet n d0 d1 k := by
  simp [commandRow, swPayload, wpPayload]

/-- A well-formed frame is read back from its bytes. -/
theorem decodeFrame_encode {i : Instr} (hwf : i.wf = true) (hwire : i.isWire = true) : decodeFrame (encode i) = .ok i := by
  cases i with
  | wireResponse => exact decodeFrame_response ..
  | wireCommand c p d0 d1 k t =>
    obtain ⟨hlen, hplain⟩ := Bool.and_eq_true_iff.1 hwf
    rw [Bool.not_eq_true'] at hplain
    rw [← commandRow_plain hplain, encode_commandRow]
    exact decodeFrame_command c d0 d1 k t (by simpa using hlen)
  | wireSwQuery => rfl
  | wireSwSleep => rfl
  | wireSwWake => rfl
  | wireWpQuery => rfl
  | wireWpSet n d0 d1 k =>
    rw [← commandRow_wpSet, encode_commandRow]
    exact decodeFrame_command _ _ _ _ _ rfl
  | msgNew | checksum | serialize | frameParse | rxConfig | rxRead | measDecode | write | swNew | swSleep | swWake | swBuild
  | wpNew | wpSet | wpBuild => cases hwire

/-! ### Round trips -/

/-- The first byte of an encoding tells its port (30_encoding.md R50, R61). -/
theorem encode_head_iff (i : Instr) : (encode i).head? = some Config.head ↔ i.isWire = true := by
  cases i with
  | msgNew => exact Laws.FirstByte.msgNew ..
  | checksum => exact Laws.FirstByte.checksum ..
  | serialize => exact Laws.FirstByte.serialize ..
  | frameParse => exact Laws.FirstByte.frameParse ..
  | rxConfig => exact Laws.FirstByte.rxConfig ..
  | rxRead => exact Laws.FirstByte.rxRead
  | measDecode => exact Laws.FirstByte.measDecode ..
  | write => exact Laws.FirstByte.write ..
  | swNew => exact Laws.FirstByte.swNew ..
  | swSleep => exact Laws.FirstByte.swSleep
  | swWake => exact Laws.FirstByte.swWake
  | swBuild => exact Laws.FirstByte.swBuild ..
  | wpNew => exact Laws.FirstByte.wpNew ..
  | wpSet => exact Laws.FirstByte.wpSet ..
  | wpBuild => exact Laws.FirstByte.wpBuild ..
  | wireResponse => exact Laws.FirstByte.wireResponse ..
  | wireCommand => exact Laws.FirstByte.wireCommand ..
  | wireSwQuery => exact Laws.FirstByte.wireSwQuery ..
  | wireSwSleep => exact Laws.FirstByte.wireSwSleep ..
  | wireSwWake => exact Laws.FirstByte.wireSwWake ..
  | wireWpQuery => exact Laws.FirstByte.wireWpQuery ..
  | wireWpSet => exact Laws.FirstByte.wireWpSet ..

/-- Settles O2: the first byte sends a frame to the frame decoder and a request to the request decoder, and each reads back what
its encoder wrote. -/
theorem decodeEncodeRoundTrip : Obligations.DecodeEncodeRoundTrip := by
  intro i hwf
  unfold decode
  split_ifs with hhead
  · exact decodeFrame_encode hwf ((encode_head_iff i).1 hhead)
  · exact decodeRequest_encode hwf (Bool.eq_false_iff.2 (mt (encode_head_iff i).2 hhead))

/-- A byte string that decodes as a frame is the encoding of a well-formed frame. -/
theorem decodeFrame_ok {bs : Bytes} {i : Instr} (h : decodeFrame bs = .ok i) : encode i = bs ∧ i.wf = true := by
  have hdecode := h
  unfold decodeFrame at h
  split_ifs at h with hhead h10 h19
  · obtain ⟨c, d0, d1, k, t, p, hp, rfl⟩ := exists_frameBytes (n := 4) hhead h10
    obtain ⟨p0, p1, p2, p3, rfl⟩ := List.length_eq_four.1 hp
    cases hdecode
    exact ⟨rfl, rfl⟩
  · obtain ⟨c, d0, d1, k, t, p, hp, rfl⟩ := exists_frameBytes (n := 13) hhead h19
    rw [decodeFrame_command c d0 d1 k t hp] at hdecode
    cases hdecode
    exact ⟨encode_commandRow .., commandRow_wf c d0 d1 k t hp⟩

/-- The opcodes of 30_encoding.md R61. -/
def opcodes : List Byte :=
  [0x01, 0x02, 0x03, 0x04, 0x05, 0x06, 0x07, 0x08, 0x10, 0x11, 0x12, 0x13, 0x18, 0x19, 0x1A]

theorem operands_reserved {op : Byte} (h : op ∉ opcodes) (bs : Bytes) :
    Decode.operands op bs = .error .reservedOpcode := by
  simp only [opcodes, List.mem_cons, List.not_mem_nil, or_false, not_or] at h
  simp only [Decode.operands, h, if_false]

/-- A request read by its last field is the encoding of what was read, if its encoding is the opcode and the field's bytes. -/
theorem request_ok_of_last {α : Type} {op : Byte} {read : Bytes → Decode.Field α} {bytes : α → Bytes} (make : α → Instr)
    (hread : ∀ {bs rest a}, read bs = .ok (a, rest) → bs = bytes a ++ rest) (hencode : ∀ a, encode (make a) = op :: bytes a)
    (hhost : ∀ a, (make a).isWire = false) {bs rest : Bytes} {i : Instr}
    (h : (read bs).bind (fun x => .ok (make x.1, x.2)) = .ok (i, rest)) :
    op :: bs = encode i ++ rest ∧ i.isWire = false := by
  obtain ⟨⟨a, behind⟩, ea, h⟩ := Decode.bind_ok h
  cases h
  rw [hread ea, hencode]
  exact ⟨rfl, hhost a⟩

/-- Operand fields that were read are those of the instruction's encoding, and the instruction is a request. -/
theorem operands_ok {op : Byte} {bs rest : Bytes} {i : Instr} (h : Decode.operands op bs = .ok (i, rest)) :
    op :: bs = encode i ++ rest ∧ i.isWire = false := by
  by_cases hop : op ∈ opcodes
  case neg => rw [operands_reserved hop] at h; cases h
  have shapeField_ok : ∀ {bs rest sh}, Decode.shapeField bs = .ok (sh, rest) → bs = [sh.toByte] ++ rest :=
    Decode.shapeField_ok
  simp only [opcodes, List.mem_cons, List.not_mem_nil, or_false] at hop
  obtain rfl | rfl | rfl | rfl | rfl | rfl | rfl | rfl | rfl | rfl | rfl | rfl | rfl | rfl | rfl := hop
  · exact request_ok_of_last (fun m : Message => Instr.msgNew m.shape m.commandId m.deviceId m.payload) Decode.messageField_ok
      (fun _ => rfl) (fun _ => rfl) h
  · obtain ⟨⟨p, behind⟩, ep, h⟩ := Decode.bind_ok h
    obtain ⟨⟨d, behind⟩, ed, h⟩ := Decode.bind_ok h
    cases h
    rw [Decode.listField_ok ep, Decode.listField_ok ed]
    exact ⟨by simp [encode], rfl⟩
  · exact request_ok_of_last .serialize Decode.messageField_ok (fun _ => rfl) (fun _ => rfl) h
  · obtain ⟨⟨sh, behind⟩, es, h⟩ := Decode.bind_ok h
    obtain ⟨⟨f, behind⟩, ef, h⟩ := Decode.bind_ok h
    cases h
    rw [Decode.shapeField_ok es, Decode.listField_ok ef]
    exact ⟨rfl, rfl⟩
  · exact request_ok_of_last .rxConfig shapeField_ok (fun _ => rfl) (fun _ => rfl) h
  · cases h; exact ⟨rfl, rfl⟩
  · exact request_ok_of_last .measDecode Decode.messageField_ok (fun _ => rfl) (fun _ => rfl) h
  · exact request_ok_of_last .write Decode.messageField_ok (fun _ => rfl) (fun _ => rfl) h
  · exact request_ok_of_last .swNew shapeField_ok (fun _ => rfl) (fun _ => rfl) h
  · cases h; exact ⟨rfl, rfl⟩
  · cases h; exact ⟨rfl, rfl⟩
  · exact request_ok_of_last .swBuild Decode.listField_ok (fun _ => rfl) (fun _ => rfl) h
  · exact request_ok_of_last .wpNew shapeField_ok (fun _ => rfl) (fun _ => rfl) h
  · exact request_ok_of_last .wpSet Decode.intField_ok (fun _ => rfl) (fun _ => rfl) h
  · exact request_ok_of_last .wpBuild Decode.listField_ok (fun _ => rfl) (fun _ => rfl) h

theorem decodeRequest_ok {bs : Bytes} {i : Instr} (h : decodeRequest bs = .ok i) : encode i = bs ∧ i.isWire = false := by
  obtain ⟨⟨j, rest⟩, ej, h⟩ := Decode.bind_ok h
  dsimp only at h
  split_ifs at h with hrest
  cases h
  cases bs with
  | nil => cases ej
  | cons op bs =>
    obtain ⟨hbytes, hhost⟩ := operands_ok ej
    rw [hrest, List.append_nil] at hbytes
    exact ⟨hbytes.symm, hhost⟩

/-- Settles O3: what either decoder read is what the encoder writes. -/
theorem decodableBytesAreCanonical : Obligations.DecodableBytesAreCanonical := by
  intro bs i h
  unfold decode at h
  split_ifs at h
  · exact ⟨(decodeFrame_ok h).1, fun _ => (decodeFrame_ok h).2⟩
  · obtain ⟨hbytes, hhost⟩ := decodeRequest_ok h
    exact ⟨hbytes, fun hwire => by simp [hhost] at hwire⟩

/-! ### Reserved requests -/

/-- A request whose bytes do not decode is refused by the reason. -/
theorem step_refused_of_decode_error {s : State} {bs : Bytes} {later : List Event} {why : Reject}
    (hagenda : s.agenda = .request bs :: later) (hdecode : decodeRequest bs = .error why) :
    step s = .refused (.reservedEncoding why) := by
  rw [step_cons hagenda]
  simp only [stepEvent, hdecode]

theorem decodeRequest_operands_error {op : Byte} {bs : Bytes} {why : Reject} (h : Decode.operands op bs = .error why) :
    decodeRequest (op :: bs) = .error why := by
  rw [decodeRequest, Decode.requestFront, h]
  rfl

theorem shapeField_badShape {sh : Byte} (h0 : sh ≠ 0x00) (h1 : sh ≠ 0x01) (rest : Bytes) :
    Decode.shapeField (sh :: rest) = .error .badShape := by
  rw [Decode.shapeField, if_neg h0, if_neg h1]

/-- A field after one that was not read is not read either, for the same reason. -/
theorem bind_error {α β : Type} {x : Except Reject α} {why : Reject} (h : x = .error why) (f : α → Except Reject β) :
    x.bind f = .error why := by
  rw [h]
  rfl

theorem needMessage_invalid {m : Message} (h : m.valid = false) (effect : Out) :
    needMessage m effect = .refused .notAMessage := by
  simp [needMessage, h]

/-- The eight formats that begin with a shape byte refuse the reserved ones. -/
theorem operands_badShape {op sh : Byte} (hop : op ∈ [0x01, 0x03, 0x04, 0x05, 0x07, 0x08, 0x10, (0x18 : Byte)])
    (h0 : sh ≠ 0x00) (h1 : sh ≠ 0x01) (rest : Bytes) : Decode.operands op (sh :: rest) = .error .badShape := by
  have hshape := shapeField_badShape h0 h1 rest
  have hmessage : Decode.messageField (sh :: rest) = .error .badShape := bind_error hshape _
  simp only [List.mem_cons, List.not_mem_nil, or_false] at hop
  obtain rfl | rfl | rfl | rfl | rfl | rfl | rfl | rfl := hop
  · exact bind_error hmessage _
  · exact bind_error hmessage _
  · exact bind_error hshape _
  · exact bind_error hshape _
  · exact bind_error hmessage _
  · exact bind_error hmessage _
  · exact bind_error hshape _
  · exact bind_error hshape _

/-- While `BUSY` = 1 every host request is refused (30_encoding.md R66). -/
theorem exec_host_busy {i : Instr} (hhost : i.isWire = false) {s : State} (hr : s.resetInput = false)
    (hb : s.busy = true) : exec i s = .refused .busy := by
  cases i
  case msgNew | checksum | serialize | frameParse | rxConfig | rxRead | measDecode | write | swNew | swSleep | swWake | swBuild
    | wpNew | wpSet | wpBuild => exact take_busy hr hb _
  all_goals cases hhost

/-- Settles O4: the first four kinds by the field that is not read, the last two by what taking a request asks. -/
theorem reservedRequestsRefused : Obligations.ReservedRequestsRefused := by
  refine ⟨?_, ?_, ?_, ?_, ?_, fun s i hr hb hhost => exec_host_busy hhost hr hb⟩
  · intro s op rest later hop hagenda
    exact step_refused_of_decode_error hagenda (decodeRequest_operands_error (operands_reserved hop rest))
  · intro s op sh rest later hop h0 h1 hagenda
    exact step_refused_of_decode_error hagenda (decodeRequest_operands_error (operands_badShape hop h0 h1 rest))
  · intro maxLen n rest hlong
    rw [Decode.listFieldUpTo, if_pos hlong]
  · intro s i k later hwf hhost hk hagenda
    exact step_refused_of_decode_error hagenda (decodeRequest_truncated hwf hhost hk)
  · intro s m hready hinvalid
    have hrefused : ∀ effect, take s (needMessage m effect) = .refused .notAMessage := fun effect =>
      (take_ready hready _).trans (needMessage_invalid hinvalid effect)
    exact ⟨hrefused _, hrefused _, hrefused _⟩

end Sys2Proof

namespace Sys2Proof.Machine

/-! ### The frames of the builders -/

/-- What a build for a two-byte device id makes, laid out as a frame: the builder has shape Command, the only one with a 13-byte
payload (30_encoding.md R53 to R55). -/
theorem decodeFrame_serialize_build {b : Builder} {d0 d1 : Byte} {m : Message} (h : build b [d0, d1] = .ok m) :
    decodeFrame (serialize m) =
      .ok (commandRow Config.builderCmdId b.buf.toList d0 d1 (checksum m.payload [d0, d1]) Config.tail) := by
  rcases newMessage_cases b.shape Config.builderCmdId [d0, d1] b.buf.toList with ⟨_, e⟩ | ⟨_, _, e⟩ | ⟨_, _, e⟩ <;>
    rw [build, e] at h <;> cases h
  exact decodeFrame_command _ _ _ _ _ (by simp)

/-- Settles O23: the invariant says which payloads the buffers hold, and each is a builder row's. -/
theorem builtFramesAreTheirRows : Obligations.BuiltFramesAreTheirRows := by
  refine fun s d0 d1 hinv => ⟨fun m hbuild => ⟨_, rfl, ?_⟩, fun m hbuild => ⟨_, rfl, ?_⟩⟩ <;>
    rw [decodeFrame_serialize_build hbuild]
  · rcases hinv.sw_payload with hp | hp | hp <;> rw [hp]
    · exact .inl rfl
    · exact .inr (.inl rfl)
    · exact .inr (.inr rfl)
  · rcases hinv.wp_payload with hp | ⟨n, hp⟩ <;> rw [hp]
    · exact .inl rfl
    · exact .inr ⟨n, congrArg _ (commandRow_wpSet n d0 d1 _)⟩

/-! ### An RX_READ that takes a whole frame -/

/-- A frame of the shape's length is parsed to its fields, whatever its checksum and tail (42_frame_reader.md R88). -/
theorem parse_frameBytes {sh : Shape} {c k t : Byte} {p d : Bytes} (hp : p.length = sh.dataLength) (hd : d.length = 2) :
    parse sh (frameBytes c p d k t) = .ok ⟨sh, c, d, p⟩ := by
  have hdev : slice (frameBytes c p d k t) (sh.messageLength - 4) (sh.messageLength - 2) = d := by
    have hslice := slice_frameBytes_deviceId (c := c) (k := k) (t := t) hp hd
    rwa [Nat.add_comm 2, Nat.add_comm 4] at hslice
  rw [parse, hdev, slice_frameBytes_payload hp, getD_frameBytes_commandId, newMessage_ok hp hd]

/-- The offer of the head to an engine in HUNT (42_frame_reader.md R93). -/
theorem linkOffer_head {s : State} {rest : Bytes} (hr : s.resetInput = false) (hs : s.rx.state = .hunt)
    (hh : s.held = Config.head :: rest) :
    linkOffer s = .next { s with held := rest, rx := ⟨.collect, 1, s.rx.buf.set 0 Config.head⟩ } := by
  simp only [linkOffer, hr, hs, hh, huntStep]
  rfl

/-- The offer of a frame's last byte to an engine in COLLECT completes the RX_READ (42_frame_reader.md R95). -/
theorem linkOffer_last {s : State} {b : Byte} {rest : Bytes} (hr : s.resetInput = false) (hs : s.rx.state = .collect)
    (hh : s.held = b :: rest) (hlt : s.rx.cnt.val < 19) (hlast : s.rx.cnt.val + 1 = s.rxShape.messageLength) :
    linkOffer s = .next (completeRx (stored b { s with held := rest } hlt)) := by
  have hoffer : linkOffer s = collectStep b { s with held := rest } := by simp [linkOffer, hr, hs, hh]
  rcases collectStep_cases b { s with held := rest } with ⟨_, _, e⟩ | ⟨_, hmore, _⟩ | ⟨hout, _⟩
  · rw [hoffer, e, completeRx_eq]
  · exact absurd hlast hmore
  · exact absurd hlt (not_lt.2 hout)

theorem overwriteFront_toList_of_le (buf : Vector Byte 19) {f : Bytes} (h : f.length ≤ 19) :
    (overwriteFront buf f).toList = f ++ buf.toList.drop f.length := by
  rw [overwriteFront_toList, List.take_of_length_le]
  simp only [List.length_append, List.length_drop, Vector.length_toList]
  omega

/-- The head stored in HUNT and a run of bytes collected behind it stand at the front of `RX.buf`. -/
theorem toList_set_head (buf : Vector Byte 19) {r : Bytes} (h : r.length + 1 ≤ 19) :
    (buf.set 0 Config.head).toList.take 1 ++ r ++ (buf.set 0 Config.head).toList.drop (1 + r.length) =
      (overwriteFront buf (Config.head :: r)).toList := by
  obtain ⟨b, bs, hbuf⟩ : ∃ b bs, buf.toList = b :: bs := List.exists_cons_of_length_eq_add_one buf.length_toList
  rw [overwriteFront_toList_of_le buf (f := Config.head :: r) h]
  simp [Vector.toList_set, hbuf, Nat.add_comm 1]

/-- The byte stored behind the front is the front's next. -/
theorem overwriteFront_set (buf : Vector Byte 19) {f : Bytes} {n : Nat} (hn : n = f.length) (h : n < 19) (b : Byte) :
    (overwriteFront buf f).set n b = overwriteFront buf (f ++ [b]) := by
  subst hn
  apply Vector.toList_inj.1
  have hnext : (f ++ [b]).length ≤ 19 := by simpa using h
  rw [Vector.toList_set, overwriteFront_toList_of_le buf h.le, overwriteFront_toList_of_le buf hnext,
    List.drop_eq_getElem_cons (by simpa using h)]
  simp

/-- The state in which COLLECT has taken the bytes `f` of a frame (42_frame_reader.md R94). -/
def collecting (s : State) (f : Bytes) : State :=
  { s with rx := ⟨.collect, Fin.ofNat 20 f.length, overwriteFront s.rx.buf f⟩ }

theorem collecting_cnt (s : State) {f : Bytes} (h : f.length ≤ 19) : (collecting s f).rx.cnt.val = f.length :=
  Nat.mod_eq_of_lt (Nat.lt_succ_of_le h)

theorem collecting_buf (s : State) {f : Bytes} (h : f.length = 19) : (collecting s f).rx.buf.toList = f := by
  have hfront := overwriteFront_front s.rx.buf h.le
  rwa [h, List.take_of_length_le Vector.length_toList.le] at hfront

theorem stored_collecting (s : State) {f : Bytes} (b : Byte) (hf : f.length ≤ 19)
    (h : (collecting s f).rx.cnt.val < 19) : stored b (collecting s f) h = collecting s (f ++ [b]) := by
  have hn := collecting_cnt s hf
  have hcnt : (collecting s f).rx.cnt + 1 = Fin.ofNat 20 (f ++ [b]).length := by
    apply Fin.ext
    rw [fin20_succ h, hn, List.length_append, List.length_singleton, Fin.val_ofNat, Nat.mod_eq_of_lt (by omega)]
  have hbuf := overwriteFront_set s.rx.buf hn h b
  rw [stored, hcnt]
  exact congrArg (fun buf => { s with rx := ⟨.collect, Fin.ofNat 20 (f ++ [b]).length, buf⟩ }) hbuf

/-- The offers of a frame's head and of bytes that end before the frame does. -/
theorem linkOffers_head_collect {s : State} {r rest : Bytes} (hr : s.resetInput = false) (hs : s.rx.state = .hunt)
    (hh : s.held = Config.head :: r ++ rest) (hc : 1 + r.length < s.rxShape.messageLength) :
    linkOffers (1 + r.length) s = .next (collecting { s with held := rest } (Config.head :: r)) := by
  have hle := s.rxShape.messageLength_le
  obtain ⟨t, hcollect, ht, hstate, hcnt, hbuf⟩ := linkOffers_collect
    (s := { s with held := r ++ rest, rx := ⟨.collect, 1, s.rx.buf.set 0 Config.head⟩ }) hr rfl rfl hc
  have hrx : t.rx = ⟨.collect, Fin.ofNat 20 (Config.head :: r).length, overwriteFront s.rx.buf (Config.head :: r)⟩ := by
    have hcnt' : t.rx.cnt = Fin.ofNat 20 (Config.head :: r).length := by
      apply Fin.ext
      rw [hcnt, List.length_cons, Fin.val_ofNat, Nat.mod_eq_of_lt (by omega), Nat.add_comm]
      rfl
    have hbuf' : t.rx.buf = overwriteFront s.rx.buf (Config.head :: r) :=
      Vector.toList_inj.1 (hbuf.trans (toList_set_head s.rx.buf (by omega)))
    rw [← hstate, ← hcnt', ← hbuf']
  rw [linkOffers_add (linkOffers_one_of_next (linkOffer_head hr hs (rest := r ++ rest) hh)), hcollect, ht, hrx]
  rfl

/-- The RX_READ ends with what the collected frame parses to (42_frame_reader.md R95). -/
theorem completeRx_collecting {s : State} {f : Bytes} {m : Message} (hf : f.length = s.rxShape.messageLength)
    (hm : parse s.rxShape f = .ok m) : completeRx (collecting s f) = finishRx (.ok (.message m)) (collecting s f) := by
  have hfront : (overwriteFront s.rx.buf f).toList.take s.rxShape.messageLength = f := by
    rw [← hf]
    exact overwriteFront_front _ (hf ▸ s.rxShape.messageLength_le)
  have hparse : parse s.rxShape ((overwriteFront s.rx.buf f).toList.take s.rxShape.messageLength) = .ok m := by
    rw [hfront, hm]
  exact congrArg (fun x => finishRx (resultOf .message x) (collecting s f)) hparse

/-- The offers of a whole frame, from its head to its last byte, end the RX_READ with what the frame parses to
(42_frame_reader.md R93 to R95). -/
theorem linkOffers_frame_completes {s : State} {r rest : Bytes} {m : Message} (hr : s.resetInput = false)
    (hs : s.rx.state = .hunt) (hh : s.held = Config.head :: r ++ rest) (hl : r.length + 1 = s.rxShape.messageLength)
    (hm : parse s.rxShape (Config.head :: r) = .ok m) :
    linkOffers s.rxShape.messageLength s =
      .next (finishRx (.ok (.message m)) (collecting { s with held := rest } (Config.head :: r))) := by
  have hge := s.rxShape.messageLength_ge
  have hle := s.rxShape.messageLength_le
  obtain ⟨mid, last, rfl⟩ : ∃ mid last, r = mid ++ [last] :=
    ⟨r.dropLast, r.getLast (by rintro rfl; simp at hl; omega), (List.dropLast_append_getLast _).symm⟩
  have hmid : mid.length + 1 + 1 = s.rxShape.messageLength := by simpa using hl
  have hcollect := linkOffers_head_collect (r := mid) (rest := last :: rest) hr hs (by simpa using hh) (by omega)
  have hcnt := collecting_cnt { s with held := rest } (f := Config.head :: mid) (by rw [List.length_cons]; omega)
  have hlast : linkOffer (collecting { s with held := last :: rest } (Config.head :: mid)) =
      .next (completeRx (stored last (collecting { s with held := rest } (Config.head :: mid)) _)) :=
    linkOffer_last (s := collecting { s with held := last :: rest } (Config.head :: mid)) hr rfl rfl
      (hcnt.trans_lt (by rw [List.length_cons]; omega)) ((congrArg (· + 1) hcnt).trans hmid)
  rw [← hmid, Nat.add_comm mid.length 1, linkOffers_add hcollect, linkOffers_one_of_next hlast,
    stored_collecting _ _ (by rw [List.length_cons]; omega)]
  exact congrArg _ (completeRx_collecting (s := { s with held := rest }) hl hm)

/-- The burst of a frame to an engine in HUNT with nothing older in the Link (42_frame_reader.md R98): the RX_READ ends with the
frame's fields. -/
theorem linkBurst_frame_completes {s : State} {c d0 d1 k t : Byte} {p : Bytes} (hr : s.resetInput = false)
    (hs : s.rx.state = .hunt) (hh : s.held = []) (hp : p.length = s.rxShape.dataLength) :
    linkBurst (frameBytes c p [d0, d1] k t) s =
      .next (finishRx (.ok (.message ⟨s.rxShape, c, [d0, d1], p⟩)) (collecting s (frameBytes c p [d0, d1] k t))) := by
  have hlen : (frameBytes c p [d0, d1] k t).length = s.rxShape.messageLength := by
    rw [frameBytes_length, hp]; rfl
  have hempty : { s with held := [] } = s := by rw [← hh]
  have hread := linkOffers_frame_completes (s := { s with held := frameBytes c p [d0, d1] k t })
    (rest := []) hr hs (List.append_nil _).symm hlen (parse_frameBytes (d := [d0, d1]) hp rfl)
  rw [hempty] at hread
  rw [linkBurst, hh, List.length_nil, Nat.zero_add, List.nil_append, hlen]
  exact hread

/-- Settles O36: the frame's bytes are those of a response frame with the four bytes as its payload. -/
theorem wireResponseCompletesRead : Obligations.WireResponseCompletesRead := by
  intro s c p0 p1 p2 p3 d0 d1 k t hr hs hshape hh
  have hread := linkBurst_frame_completes (c := c) (d0 := d0) (d1 := d1) (k := k) (t := t) (p := [p0, p1, p2, p3]) hr hs hh
    (by rw [hshape]; rfl)
  rw [hshape] at hread
  exact (exec_wire rfl s).trans hread

/-- Settles O37: each row's bytes are those of a command frame with the row's payload. -/
theorem wireCommandsCompleteRead : Obligations.WireCommandsCompleteRead := by
  intro s i c d0 d1 k p hr hs hshape hh hrow
  obtain ⟨t, hp, hwire, hbytes⟩ : ∃ t, p.length = 13 ∧ i.isWire = true ∧ encode i = frameBytes c p [d0, d1] k t := by
    rcases hrow with ⟨t, hp, rfl⟩ | ⟨rfl, rfl, rfl⟩ | ⟨rfl, rfl, rfl⟩ | ⟨rfl, rfl, rfl⟩ | ⟨rfl, rfl, rfl⟩ | ⟨n, rfl, rfl, rfl⟩
    · exact ⟨t, hp, rfl, rfl⟩
    all_goals exact ⟨Config.tail, rfl, rfl, rfl⟩
  have hread := linkBurst_frame_completes (c := c) (d0 := d0) (d1 := d1) (k := k) (t := t) hr hs hh
    (by rw [hshape]; exact hp)
  rw [hshape, ← hbytes] at hread
  have hlen : (encode i).length = 19 := by rw [hbytes, frameBytes_length, hp]; rfl
  exact ⟨_, (exec_wire hwire s).trans hread, rfl, rfl, Fin.ext ((collecting_cnt s hlen.le).trans hlen),
    collecting_buf s hlen⟩

/-! ### Register fields -/

theorem RxState.code_lt (x : RxState) : x.code.toNat < 3 := by cases x <;> decide

/-- Settles O46: `CFG` is 0 or 1; the fields of `STATUS` are the digits of the sum of its fields, whose codes are RX states and
error codes that occur. -/
theorem reservedRegisterFields : Obligations.ReservedRegisterFields := by
  intro s hinv
  have hrx := RxState.code_lt s.rx.state
  have htx := s.tx.state.code.isLt
  have hbusy := s.busy.toNat_lt
  have herr := hinv.err_code
  have hstatus := status_toNat s
  refine ⟨?_, ?_, ?_, ?_⟩
  · rw [cfg_eq]
    split_ifs <;> rfl
  · apply BitVec.eq_of_toNat_eq
    rw [BitVec.extractLsb'_toNat, Nat.shiftRight_eq_div_pow, hstatus]
    change _ = 0
    omega
  · intro h3
    have hfield := congrArg BitVec.toNat h3
    rw [BitVec.extractLsb'_toNat, Nat.shiftRight_eq_div_pow, hstatus] at hfield
    change _ = 3 at hfield
    omega
  · rw [BitVec.lt_def, BitVec.extractLsb'_toNat, Nat.shiftRight_eq_div_pow, hstatus]
    change _ < 4
    omega

/-! ### The bytes of a Result -/

theorem bytesLE_two (lo hi : Byte) : bytesLE 2 (hi ++ lo).toNat = [lo, hi] := by
  have hnat : (hi ++ lo).toNat = natLE [lo, hi] := by
    simp only [toNat_append_eq_add, natLE]
    omega
  rw [hnat]
  exact bytesLE_natLE [lo, hi]

theorem intBytes_toInt (b0 b1 b2 b3 : Byte) : intBytes (b3 ++ b2 ++ b1 ++ b0 : BitVec 32).toInt = [b0, b1, b2, b3] := by
  have hnat : (b3 ++ b2 ++ b1 ++ b0).toNat = natLE [b0, b1, b2, b3] := by
    simp only [toNat_append_eq_add, natLE]
    omega
  rw [intBytes, BitVec.ofInt_toInt, hnat]
  exact bytesLE_natLE [b0, b1, b2, b3]

/-- Settles O6: the code byte and the fields of each Result, its numbers of more than one byte little-endian. -/
theorem resultBytes : Obligations.ResultBytes := by
  refine ⟨fun m _ _ => ?_, fun bs _ => rfl, fun b => rfl, fun n _ => rfl, fun c d lo25 hi25 lo10 hi10 _ => ?_, rfl,
    fun a e _ _ => ⟨rfl, rfl, rfl⟩, fun b0 b1 b2 b3 => ?_, rfl⟩
  · simp [Result.encode, Result.code, Value.encode, Encode.message, Encode.list]
  · simp only [Result.encode, Value.encode, bytesLE_two]
    simp [Result.code, Encode.list]
  · exact congrArg (List.cons 0x02) (intBytes_toInt b0 b1 b2 b3)

/-! ### Words of the spec and pseudo-requests -/

/-- Settles O1: each word is decoded field by field. -/
theorem specWordsDecode : Obligations.SpecWordsDecode := ⟨rfl, rfl, rfl, rfl, rfl, rfl, rfl, rfl, rfl, rfl⟩

/-- Settles O56: the table of 30_encoding.md R69 row by row, and the two ways a Result is received. -/
theorem pseudoRequestsExpand : Obligations.PseudoRequestsExpand :=
  ⟨fun _ _ _ => ⟨rfl, rfl, rfl, rfl, rfl, rfl⟩, fun _ _ _ _ _ _ => ⟨rfl, rfl⟩⟩

end Sys2Proof.Machine

/-! PROOFS. The statements of 40_frame_codec.md: the checksum as a sum modulo 256, the places of the bytes of a frame, and the
three codec requests. -/

namespace Sys2Proof.Machine

/-! ### The checksum as a sum modulo 256 -/

theorem ofNat_sumBytes (p : Bytes) : BitVec.ofNat 8 (sumBytes p) = p.sum := by
  induction p with
  | nil => rfl
  | cons b p ih => rw [sumBytes, BitVec.ofNat_add, ih, BitVec.ofNat_toNat, BitVec.setWidth_eq, List.sum_cons]

/-- The reduction of R70 may be done byte by byte: the checksum is the sum of all bytes in the ring of bytes. -/
theorem checksum_eq_sum (p d : Bytes) : checksum p d = p.sum + d.sum := by
  rw [checksum, BitVec.ofNat_add, ofNat_sumBytes, ofNat_sumBytes]

/-- The checksum in the form R70 writes it out. -/
theorem checksum_eq_mod (p d : Bytes) :
    checksum p d = BitVec.ofNat 8 (((p ++ d).map BitVec.toNat).sum % 256) := by
  rw [← sumBytes_eq_sum, sumBytes_append]
  exact BitVec.eq_of_toNat_eq (Nat.mod_mod _ _).symm

/-- A change of one byte by `k` changes the sum by `k`. -/
theorem sum_set_getD_add {l : Bytes} {i : Nat} (h : i < l.length) (k : Byte) : (l.set i (l.getD i 0 + k)).sum = l.sum + k := by
  rw [List.sum_set', dif_pos h, List.getD_eq_getElem _ _ h]
  ring

/-- Changes of two bytes of a list that cancel leave its sum. -/
theorem sum_set_set_cancel {l : Bytes} {i j : Nat} (hi : i < l.length) (hj : j < l.length) (hne : i ≠ j) (k : Byte) :
    ((l.set i (l.getD i 0 + k)).set j (l.getD j 0 - k)).sum = l.sum := by
  have hother : (l.set i (l.getD i 0 + k)).getD j 0 = l.getD j 0 := by
    rw [List.getD_eq_getElem?_getD, List.getElem?_set_ne hne, List.getD_eq_getElem?_getD]
  have hj' : j < (l.set i (l.getD i 0 + k)).length := by rwa [List.length_set]
  have hsecond := sum_set_getD_add hj' (-k)
  rw [hother, sum_set_getD_add hi k] at hsecond
  rw [sub_eq_add_neg, hsecond, add_neg_cancel_right]

/-! ### The places of a frame's bytes -/

/-- The checksum and the tail stand behind payload and device id. -/
theorem getElem?_frameBytes_end (c k t : Byte) {p d : Bytes} {n : Nat} (hn : n = p.length + d.length + 2) (j : Nat) :
    (frameBytes c p d k t)[n + j]? = [k, t][j]? := by
  have hfront : ([Config.head, c] ++ p ++ d).length = n := by simp; omega
  rw [frameBytes, List.getElem?_append_right (by omega), hfront, Nat.add_sub_cancel_left]

/-- A serialized Message has the checksum at index L-2 and the tail behind it. -/
theorem getElem?_serialize_end {m : Message} (h : m.valid = true) :
    (serialize m)[m.shape.messageLength - 2]? = some (checksum m.payload m.deviceId) ∧
      (serialize m)[m.shape.messageLength - 1]? = some Config.tail := by
  obtain ⟨hd, hp⟩ := (Message.valid_iff m).1 h
  have hn : m.shape.messageLength - 2 = m.payload.length + m.deviceId.length + 2 := by
    rw [hd, hp, Shape.messageLength]
    omega
  have hlast : m.shape.messageLength - 1 = m.shape.messageLength - 2 + 1 := by
    have := m.shape.messageLength_ge
    omega
  rw [hlast]
  exact ⟨getElem?_frameBytes_end _ _ _ hn 0, getElem?_frameBytes_end _ _ _ hn 1⟩

/-- Settles O11: head and command_id stand in front of the payload, checksum and tail behind the device id. -/
theorem serializedFrameShape : Obligations.SerializedFrameShape := by
  intro m h
  obtain ⟨hchecksum, htail⟩ := getElem?_serialize_end h
  exact ⟨serialize_length h, rfl, htail, rfl, hchecksum⟩

/-- Settles O9: (a) the byte at L-2 is the checksum, which reads no command_id; (c) each byte is at most 255; (d) the checksum is
a sum of bytes, and two changes that cancel are in one list or one in each. -/
theorem checksumProperties : Obligations.ChecksumProperties := by
  refine ⟨fun m c h => ?_, rfl, fun p d hd => ?_, fun p d k i => ⟨fun hi => ?_, fun hi => ?_⟩,
    fun p d k i j => ⟨fun hi hj hne => ?_, fun hi hj hne => ?_, fun hi hj => ?_⟩⟩
  · exact (getElem?_serialize_end (m := { m with commandId := c }) h).1.trans (getElem?_serialize_end h).1.symm
  · have hp := sumBytes_le p
    have hd' := sumBytes_le d
    constructor <;> intro hlen <;> omega
  · rw [checksum_eq_sum, checksum_eq_sum, sum_set_getD_add hi, add_right_comm]
  · rw [checksum_eq_sum, checksum_eq_sum, sum_set_getD_add hi, add_assoc]
  · rw [checksum_eq_sum, checksum_eq_sum, sum_set_set_cancel hi hj hne]
  · rw [checksum_eq_sum, checksum_eq_sum, sum_set_set_cancel hi hj hne]
  · rw [checksum_eq_sum, checksum_eq_sum, sub_eq_add_neg, sum_set_getD_add hi, sum_set_getD_add hj]
    ring

/-! ### The codec requests -/

/-- Settles O7: the three answers of checked construction, of which each clause's hypotheses leave one. -/
theorem msgNewResult : Obligations.MsgNewResult := by
  intro s sh c d p hready
  have hexec : exec (.msgNew sh c d p) s = .next (finish (resultOf .message (newMessage sh c d p)) s) := take_ready hready _
  rw [hexec]
  rcases newMessage_cases sh c d p with ⟨hp, e⟩ | ⟨hp, hd, e⟩ | ⟨hp, hd, e⟩ <;> rw [e]
  · exact ⟨fun _ => rfl, fun hp' => absurd hp' hp, fun hp' => absurd hp' hp⟩
  · exact ⟨fun hp' => absurd hp hp', fun _ _ => rfl, fun _ hd' => absurd hd' hd⟩
  · exact ⟨fun hp' => absurd hp hp', fun _ hd' => absurd hd hd', fun _ _ => rfl⟩

/-- Settles O8: the request ends with the checksum, whose sum is that of the list of all bytes. -/
theorem checksumResult : Obligations.ChecksumResult := by
  intro s p d hready
  rw [← checksum_eq_mod]
  exact take_ready hready _

theorem needMessage_valid {m : Message} (h : m.valid = true) (effect : Out) : needMessage m effect = effect := if_pos h

theorem serialize_eq (m : Message) : serialize m = [0xAA, m.commandId] ++ m.payload ++ m.deviceId ++
    [BitVec.ofNat 8 (((m.payload ++ m.deviceId).map BitVec.toNat).sum % 256), 0xAB] := by
  rw [← checksum_eq_mod]
  rfl

/-- Settles O10: a Ready block takes the request, and then only a Message has a frame. -/
theorem serializeResult : Obligations.SerializeResult := by
  intro s m hready
  refine ⟨fun hvalid => ?_, fun hinvalid => ?_⟩
  · rw [← serialize_eq]
    exact (take_ready hready _).trans (needMessage_valid hvalid _)
  · exact (take_ready hready _).trans (needMessage_invalid hinvalid _)

end Sys2Proof.Machine

/-! PROOFS. The statements of 41_command_builders.md: what a Ready block answers to each builder request, the three outcomes of
a build, and the last of two set calls. -/

namespace Sys2Proof.Machine

/-! ### The builder requests in a Ready state -/

section ready
variable {s : State} {n : Int} (h : s.Ready)
include h

theorem exec_swNew_ready (sh : Shape) :
    exec (.swNew sh) s = .next (finish (.ok .none) { s with swb := Builder.fresh Config.subcmdSleepWake sh }) := take_ready h _

theorem exec_swSleep_ready : exec .swSleep s = .next (finish (.ok .none) { s with swb := s.swb.setMode 0x01 0x00 }) :=
  take_ready h _

theorem exec_swWake_ready : exec .swWake s = .next (finish (.ok .none) { s with swb := s.swb.setMode 0x01 0x01 }) :=
  take_ready h _

theorem exec_swBuild_ready (d : Bytes) : exec (.swBuild d) s = .next (finish (resultOf .message (build s.swb d)) s) :=
  take_ready h _

theorem exec_wpNew_ready (sh : Shape) :
    exec (.wpNew sh) s = .next (finish (.ok .none) { s with wpb := Builder.fresh Config.subcmdWorkPeriod sh }) := take_ready h _

theorem exec_wpBuild_ready (d : Bytes) : exec (.wpBuild d) s = .next (finish (resultOf .message (build s.wpb d)) s) :=
  take_ready h _

/-- The range check fails on either side of 0..255 (41_command_builders.md R86). -/
theorem exec_wpSet_out_of_range (hn : n < 0 ∨ 255 < n) :
    exec (.wpSet n) s = .next (finish (.err (.invalidArgument n)) s) :=
  (take_ready h _).trans (congrArg Host.Outcome.next (if_pos hn))

theorem exec_wpSet_in_range (h0 : 0 ≤ n) (h255 : n ≤ 255) :
    exec (.wpSet n) s = .next (finish (.ok .none) { s with wpb := s.wpb.setMode 0x01 (BitVec.ofInt 8 n) }) :=
  have hn : ¬(n < 0 ∨ 255 < n) := by omega
  (take_ready h _).trans (congrArg Host.Outcome.next (if_neg hn))
end ready

/-! ### The outcomes of a build -/

section build
variable {b : Builder} {d : Bytes}

/-- A Response wants 4 payload bytes, and the buffer has 13 (41_command_builders.md R80). -/
theorem build_response (hb : b.shape = .response) : build b d = .error (.invalidLength .payload 13 4) := by
  simp [build, newMessage, hb]

theorem build_command_bad_deviceId (hb : b.shape = .command) (hd : d.length ≠ 2) :
    build b d = .error (.invalidLength .deviceId d.length 2) := by
  simp [build, newMessage, hb, hd, Config.devidLen]

theorem build_command_ok (hb : b.shape = .command) (hd : d.length = 2) :
    build b d = .ok ⟨.command, 0xB4, d, b.buf.toList⟩ := by
  rw [build, hb]
  exact newMessage_ok b.buf.length_toList hd
end build

/-! ### The statements -/

/-- Settles O16: a fresh sleep/wake builder holds 06 and twelve 00. -/
theorem swNewResult : Obligations.SwNewResult := fun _ sh h => exec_swNew_ready h sh

/-- Settles O19: a fresh working-period builder holds 08 and twelve 00. -/
theorem wpNewResult : Obligations.WpNewResult := fun _ sh h => exec_wpNew_ready h sh

/-- Settles O17: the mode bytes are 01 00 for sleep and 01 01 for wake. -/
theorem swSleepWakeResult : Obligations.SwSleepWakeResult := fun _ h => ⟨exec_swSleep_ready h, exec_swWake_ready h⟩

/-- Settles O18: a BUILD ends with the outcome of `build` on its own builder, which each clause's hypotheses fix. -/
theorem buildResult : Obligations.BuildResult := by
  intro s d h
  rw [exec_swBuild_ready h, exec_wpBuild_ready h]
  refine ⟨fun hb => ?_, fun hb hd => ?_, fun hb hd => ?_, fun hb => ?_, fun hb hd => ?_, fun hb hd => ?_⟩
  · rw [build_response hb]; rfl
  · rw [build_command_bad_deviceId hb hd]; rfl
  · rw [build_command_ok hb hd]; rfl
  · rw [build_response hb]; rfl
  · rw [build_command_bad_deviceId hb hd]; rfl
  · rw [build_command_ok hb hd]; rfl

/-- Settles O20: an integer in range is its own value as a byte. -/
theorem wpSetResult : Obligations.WpSetResult := by
  refine fun s n h => ⟨fun hn => exec_wpSet_out_of_range h hn, fun h0 h255 => ?_⟩
  have hbyte : BitVec.ofInt 8 n = BitVec.ofNat 8 n.toNat := by
    rw [← BitVec.ofInt_natCast, Int.toNat_of_nonneg h0]
  rw [← hbyte]
  exact exec_wpSet_in_range h h0 h255

/-- Settles O21: the first set call leaves the block Ready, and the second writes both mode bytes over. -/
theorem lastSetCallWins : Obligations.LastSetCallWins := by
  refine fun s h => ⟨?_, ?_, fun n k hn0 hn255 hk0 hk255 => ?_⟩
  · exact ⟨_, _, _, exec_swWake_ready h, exec_swSleep_ready h, exec_swSleep_ready h, s.swb.setMode_setMode .., rfl⟩
  · exact ⟨_, _, _, exec_swSleep_ready h, exec_swWake_ready h, exec_swWake_ready h, s.swb.setMode_setMode .., rfl⟩
  · exact ⟨_, _, _, exec_wpSet_in_range h hn0 hn255, exec_wpSet_in_range h hk0 hk255,
      exec_wpSet_in_range h hk0 hk255, s.wpb.setMode_setMode .., rfl⟩

end Sys2Proof.Machine

/-! PROOFS. The statements of 42_frame_reader.md: FRAME_PARSE and the places it reads, the issue of the reader's requests, the
link steps of an RX_READ, the run of a whole read, and what ends a wait. -/

namespace Sys2Proof.Machine

/-! ### The places a parse reads -/

/-- Lists that agree at the indices of a slice have that slice in common. -/
theorem slice_congr {f g : Bytes} {a b : Nat} (h : ∀ k, a ≤ k → k < b → f[k]? = g[k]?) : slice f a b = slice g a b := by
  apply List.ext_getElem?
  intro i
  simp only [slice, List.getElem?_take, List.getElem?_drop]
  split_ifs with hi
  · exact h (a + i) (by omega) (by omega)
  · rfl

/-- A slice of two bytes, by their places. -/
theorem slice_two {f : Bytes} {a : Nat} (h : a + 2 ≤ f.length) : slice f a (a + 2) = [f.getD a 0, f.getD (a + 1) 0] := by
  have hfirst : a < f.length := by omega
  have hsecond : a + 1 < f.length := by omega
  rw [slice, List.drop_eq_getElem_cons hfirst, List.drop_eq_getElem_cons hsecond, List.getD_eq_getElem _ _ hfirst,
    List.getD_eq_getElem _ _ hsecond, Nat.add_sub_cancel_left]
  rfl

/-- A parse reads the indices 1 to L-3 only: no head, no checksum, no tail (42_frame_reader.md R89 (b)). -/
theorem parse_congr {sh : Shape} {f g : Bytes} (h : ∀ k, 1 ≤ k → k < sh.messageLength - 2 → f[k]? = g[k]?) :
    parse sh f = parse sh g := by
  have hge := sh.messageLength_ge
  have hcommand : f.getD 1 0 = g.getD 1 0 := by
    rw [List.getD_eq_getElem?_getD, List.getD_eq_getElem?_getD, h 1 le_rfl (by omega)]
  have hdevice : slice f (sh.messageLength - 4) (sh.messageLength - 2) =
      slice g (sh.messageLength - 4) (sh.messageLength - 2) := slice_congr fun k _ hk => h k (by omega) hk
  have hpayload : slice f 2 (2 + sh.dataLength) = slice g 2 (2 + sh.dataLength) :=
    slice_congr fun k _ hk => h k (by omega) (by rw [Shape.messageLength]; omega)
  rw [parse, parse, hcommand, hdevice, hpayload]

/-- The parse of a frame of the shape's length, each field by its place (42_frame_reader.md R88). -/
theorem parse_fields {sh : Shape} {f : Bytes} (h : f.length = sh.messageLength) :
    parse sh f = .ok ⟨sh, f.getD 1 0, [f.getD (sh.messageLength - 4) 0, f.getD (sh.messageLength - 3) 0],
      (f.drop 2).take sh.dataLength⟩ := by
  have hge := sh.messageLength_ge
  have hend : sh.messageLength - 2 = sh.messageLength - 4 + 2 := by omega
  have hsecond : sh.messageLength - 3 = sh.messageLength - 4 + 1 := by omega
  rw [parse_ok h, hend, slice_two (by omega), ← hsecond, slice, Nat.add_sub_cancel_left]

/-- Parsing undoes serializing, in both shapes (42_frame_reader.md R90). -/
theorem parse_serialize {m : Message} (h : m.valid = true) : parse m.shape (serialize m) = .ok m := by
  obtain ⟨hd, hp⟩ := (Message.valid_iff m).1 h
  exact parse_frameBytes hp hd

/-! ### FRAME_PARSE -/

/-- FRAME_PARSE of a list of the shape's length, in every state (42_frame_reader.md R99). -/
theorem exec_frameParse_of_length {sh : Shape} {f : Bytes} (h : f.length = sh.messageLength) (s : State) :
    exec (.frameParse sh f) s = take s (.next (finish (resultOf .message (parse sh f)) s)) := by
  simp only [exec, execFrameParse, h, ne_eq, not_true_eq_false, if_false]

/-- FRAME_PARSE of a list of another length, in every state (42_frame_reader.md R99). -/
theorem exec_frameParse_of_length_ne {sh : Shape} {f : Bytes} (h : f.length ≠ sh.messageLength) (s : State) :
    exec (.frameParse sh f) s =
      take s (.next (finish (.err (.invalidLength .frame f.length sh.messageLength)) s)) := by
  simp only [exec, execFrameParse, if_pos h]

/-- In a Ready state FRAME_PARSE returns the Message its list is parsed to. -/
theorem exec_frameParse_ready {s : State} (hready : s.Ready) {sh : Shape} {f : Bytes} {m : Message}
    (hlen : f.length = sh.messageLength) (hparse : parse sh f = .ok m) :
    exec (.frameParse sh f) s = .next (finish (.ok (.message m)) s) := by
  rw [exec_frameParse_of_length hlen, take_ready hready, hparse]
  rfl

/-- Settles O12: the frame of a Message has its shape's length and is parsed to that Message. -/
theorem parseOfSerializedReturnsMessage : Obligations.ParseOfSerializedReturnsMessage := fun _ _ hready hvalid =>
  ⟨parse_serialize hvalid, exec_frameParse_ready hready (serialize_length hvalid) (parse_serialize hvalid)⟩

/-- Settles O13: the length decides between the error and the parse, whose fields stand at fixed places. -/
theorem frameParseResult : Obligations.FrameParseResult := by
  refine fun s sh f hready => ⟨fun hlen => ?_, fun hlen => exec_frameParse_ready hready hlen (parse_fields hlen)⟩
  exact (exec_frameParse_of_length_ne hlen s).trans (take_ready hready _)

/-- Settles O14: both lists have the length asked for, and a parse reads only indices at which they agree. -/
theorem parseIgnoresHeadChecksumTail : Obligations.ParseIgnoresHeadChecksumTail := by
  intro s sh f g hf hg hagree
  rw [exec_frameParse_of_length hf, exec_frameParse_of_length hg, parse_congr hagree]

/-! ### The issue of the reader's requests -/

/-- Settles O26: a request that starts an engine answers with the state it writes at issue, and no other. -/
theorem engineRequestsFrame : Obligations.EngineRequestsFrame := by
  refine fun s t => ⟨fun e => ?_, fun m e => ?_⟩
  · cases eq_of_take_next e; rfl
  · cases eq_of_take_needMessage_next e; rfl

/-- Settles O29: RX_CONFIG is taken at `BUSY` = 0 only. -/
theorem rxConfigResult : Obligations.RxConfigResult := fun _ _ hr =>
  ⟨fun hbusy => take_ready ⟨hr, hbusy⟩ _, fun hbusy => take_busy hr hbusy _⟩

/-- Settles O30: a Ready block takes the request, which only starts the RX engine. -/
theorem rxReadIssue : Obligations.RxReadIssue := fun _ hready => take_ready hready _

/-! ### The link steps of an RX_READ -/

/-- The offer of a byte other than the head to an engine in HUNT (42_frame_reader.md R93). -/
theorem linkOffer_discard {s : State} {b : Byte} {rest : Bytes} (hr : s.resetInput = false) (hs : s.rx.state = .hunt)
    (hh : s.held = b :: rest) (hb : b ≠ Config.head) : linkOffer s = .next { s with held := rest } := by
  simp only [linkOffer, hr, hs, hh, huntStep, if_neg hb]
  rfl

/-- The offer of a byte before a frame's last to an engine in COLLECT (42_frame_reader.md R94). -/
theorem linkOffer_more {s : State} {b : Byte} {rest : Bytes} (hr : s.resetInput = false) (hs : s.rx.state = .collect)
    (hh : s.held = b :: rest) (hlt : s.rx.cnt.val < 19) (hmore : s.rx.cnt.val + 1 ≠ s.rxShape.messageLength) :
    linkOffer s = .next (stored b { s with held := rest } hlt) := by
  have hoffer : linkOffer s = collectStep b { s with held := rest } := by simp [linkOffer, hr, hs, hh]
  rcases collectStep_cases b { s with held := rest } with ⟨_, hlast, _⟩ | ⟨_, _, e⟩ | ⟨hout, _⟩
  · exact absurd hlast hmore
  · exact hoffer.trans e
  · exact absurd hlt (not_lt.2 hout)

/-- A transport error while an RX_READ is in flight (42_frame_reader.md R96). -/
theorem linkError_of_rx {s : State} (hr : s.resetInput = false) (hs : s.rx.state ≠ .idle) :
    linkError s = finishRx (.err .transportError) s := by
  rcases linkError_cases s with ⟨hnone, _⟩ | ⟨_, _, e⟩ | ⟨_, hidle, _⟩
  · simp [hr, hs] at hnone
  · exact e
  · exact absurd hidle hs

/-! The two step statements bear the names of the model's `huntStep` and `collectStep`, so they have a namespace of their own. -/

namespace FrameReader

/-- Settles O31: the offered byte is the head or it is not. -/
theorem huntStep : Obligations.HuntStep := by
  refine fun s b rest later hr hs hh ha => ⟨?_, fun hb => ?_⟩
  · rintro rfl
    exact (step_cons ha).trans (linkOffer_head (s := { s with agenda := later }) hr hs hh)
  · exact (step_cons ha).trans (linkOffer_discard (s := { s with agenda := later }) hr hs hh hb)

/-- Settles O32: the stored byte is the frame's last or it is not; the range of the count is the invariant's. -/
theorem collectStep : Obligations.CollectStep := by
  refine fun s b rest later hlt hr hs hh ha => ⟨fun hmore => ?_, fun hlast => ?_, fun hinv => hinv.rx_count hs⟩
  · rw [step_cons ha, ← hs]
    exact linkOffer_more (s := { s with agenda := later }) hr hs hh hlt hmore
  · refine ⟨_, collected_parse (stored b { s with agenda := later, held := rest } hlt), (step_cons ha).trans ?_⟩
    refine (linkOffer_last (s := { s with agenda := later }) hr hs hh hlt hlast).trans ?_
    rw [completeRx_eq]
    rfl

end FrameReader

/-- Settles O34: an RX_READ is in flight in HUNT and in COLLECT. -/
theorem rxLinkError : Obligations.RxLinkError := by
  intro s later hr hs ha
  have hactive : s.rx.state ≠ .idle := by
    rcases hs with hs | hs <;> rw [hs] <;> nofun
  exact (step_cons ha).trans (congrArg _ (linkError_of_rx (s := { s with agenda := later }) hr hactive))

/-! ### The run of a whole read -/

/-- Settles O33: the offers of `g` are discarded in HUNT, and those of the frame end the RX_READ. -/
theorem rxReadOfStream : Obligations.RxReadOfStream := by
  intro s g r rest later hr hs hh hg hl ha
  obtain ⟨m, hm⟩ : ∃ m, parse s.rxShape (Config.head :: r) = .ok m := ⟨_, parse_ok hl⟩
  have hhunt : linkOffers g.length s = .next { s with held := Config.head :: r ++ rest } :=
    linkOffers_hunt hr hs (by simpa using hh) hg
  have hread := linkOffers_frame_completes (s := { s with held := Config.head :: r ++ rest }) hr hs rfl hl hm
  have hrun := runSteps_offers (g.length + s.rxShape.messageLength) later s
  rw [← ha, linkOffers_add hhunt, hread] at hrun
  have hle : (Config.head :: r).length ≤ 19 := hl.trans_le s.rxShape.messageLength_le
  refine ⟨m, _, hm, hrun, rfl, rfl, (collecting_cnt s hle).trans hl, ?_⟩
  rw [← hl]
  exact overwriteFront_front s.rx.buf hle

/-! ### What ends a wait -/

/-- Settles O35: while a request is in flight the Host's requests are refused and reset is released already, so releasing it does
nothing; a register read and an arriving byte touch the environment only. -/
theorem waitEndsOnlyByLinkOrReset : Obligations.WaitEndsOnlyByLinkOrReset := by
  intro s t hinv hbusy e
  have hreleased : s.resetInput = false := by
    rw [← Bool.not_eq_true]
    intro hr
    cases (hinv.in_reset hr).1.symm.trans hbusy
  cases ha : s.agenda with
  | nil => rw [step_nil ha] at e; cases e; exact .inl ⟨rfl, rfl, hbusy, rfl, rfl⟩
  | cons ev rest =>
    rw [step_cons ha] at e
    cases ev with
    | request bs =>
      obtain ⟨i, hd, e⟩ := stepEvent_request_next e
      obtain ⟨_, hfree⟩ := exec_host_next (decodeRequest_ok hd).2 e
      cases hbusy.symm.trans hfree
    | releaseReset =>
      cases e
      have hsame : releaseReset { s with agenda := rest } = { s with agenda := rest } := by simp [releaseReset, hreleased]
      rw [hsame]
      exact .inl ⟨rfl, rfl, hbusy, rfl, rfl⟩
    | readCfg | readStatus | arrive b => cases e; exact .inl ⟨rfl, rfl, hbusy, rfl, rfl⟩
    | offer => exact .inr ⟨rest, .inl rfl⟩
    | accept => exact .inr ⟨rest, .inr (.inl rfl)⟩
    | linkError => exact .inr ⟨rest, .inr (.inr (.inl rfl))⟩
    | assertReset moved => exact .inr ⟨rest, .inr (.inr (.inr (.inl ⟨moved, rfl⟩)))⟩
    | frame bs => exact .inr ⟨rest, .inr (.inr (.inr (.inr ⟨bs, rfl⟩)))⟩

end Sys2Proof.Machine

/-! PROOFS. The statements of 43_measurement_decoder.md: the field split of a payload of four bytes, the error for every other
length, and MEAS_DECODE in a Ready state. -/

namespace Sys2Proof.Machine

/-- The field split (43_measurement_decoder.md R100). -/
theorem readingOf_four_bytes {m : Message} {a b c d : Byte} (h : m.payload = [a, b, c, d]) :
    readingOf m = .ok ⟨m.commandId, m.deviceId, u16le a b, u16le c d⟩ := by
  simp [readingOf, h]

/-- A payload that has not four bytes is not split (43_measurement_decoder.md R102). -/
theorem readingOf_of_length_ne {m : Message} (h : m.payload.length ≠ 4) :
    readingOf m = .error (.invalidLength .payload m.payload.length 4) := if_pos h

/-- In a Ready state MEAS_DECODE of a Message ends with the outcome of the field split. -/
theorem exec_measDecode_ready {s : State} {m : Message} (hready : s.Ready) (hvalid : m.valid = true) :
    exec (.measDecode m) s = .next (finish (resultOf .reading (readingOf m)) s) :=
  (take_ready hready _).trans (needMessage_valid hvalid _)

/-- Settles O15: the shape of a Message fixes its payload length, 4 in a Response and 13 in a Command, and the length decides
between the split and the error. -/
theorem measDecodeResult : Obligations.MeasDecodeResult := by
  intro s m hready hvalid
  obtain ⟨_, hlength⟩ := (Message.valid_iff m).1 hvalid
  rw [exec_measDecode_ready hready hvalid]
  refine ⟨fun a b c d hpayload => ?_, fun hresponse => ?_, fun hcommand => ?_⟩
  · rw [readingOf_four_bytes hpayload]
    rfl
  · rw [hresponse] at hlength
    exact List.length_eq_four.1 hlength
  · have h13 : m.payload.length = 13 := by rw [hlength, hcommand]; rfl
    rw [readingOf_of_length_ne (by rw [h13]; decide), h13]
    rfl

end Sys2Proof.Machine

/-! PROOFS. The statements of 44_link_write.md: WRITE at issue, the acceptances that carry it on and the transport error that ends
it, the run of a whole WRITE, and what a step may do to the bytes held and sent. -/

namespace Sys2Proof.Machine

/-! ### WRITE at issue -/

/-- The state in which the WRITE of `m` was issued and no byte of its frame is sent yet (44_link_write.md R104). -/
def writing (m : Message) (s : State) : State :=
  { s with tx := ⟨.send, overwriteFront s.tx.buf (serialize m), txLen m, 0⟩, busy := true }

/-- In a Ready state WRITE of a Message is taken. -/
theorem exec_write_ready {s : State} {m : Message} (hready : s.Ready) (hvalid : m.valid = true) :
    exec (.write m) s = .next (writing m s) :=
  (take_ready hready _).trans (needMessage_valid hvalid _)

theorem serialize_length_le {m : Message} (hvalid : m.valid = true) : (serialize m).length ≤ 19 :=
  (serialize_length hvalid).trans_le m.shape.messageLength_le

theorem serialize_ne_nil (m : Message) : serialize m ≠ [] := List.cons_ne_nil _ _

/-- The frame stands at the front of `TX.buf`, the bytes behind it are those of before. -/
theorem writing_buf_toList {m : Message} (hvalid : m.valid = true) (s : State) :
    (writing m s).tx.buf.toList = serialize m ++ s.tx.buf.toList.drop m.shape.messageLength := by
  rw [← serialize_length hvalid]
  exact overwriteFront_toList_of_le s.tx.buf (serialize_length_le hvalid)

/-- Settles O41: a Ready block takes the request, which only starts the TX engine. -/
theorem writeIssue : Obligations.WriteIssue := fun s _ hready hvalid =>
  ⟨_, exec_write_ready hready hvalid, rfl, rfl, txLen_val hvalid, rfl, writing_buf_toList hvalid s⟩

/-! ### The link steps of a WRITE -/

/-- Settles O42: the accepted byte is the frame's last or it is not. -/
theorem txStep : Obligations.TxStep := by
  intro s later h hr hs ha
  have hidx := fin20_succ h
  refine ⟨fun hmore => ?_, fun hlast => ?_⟩
  · have hval : s.tx.idx.val + 1 ≠ s.tx.len.val := fun hv => hmore (Fin.ext (hidx.trans hv))
    exact (step_cons ha).trans (linkAccept_more (s := { s with agenda := later }) hr hs h hval)
  · have hval : s.tx.idx.val + 1 = s.tx.len.val := hidx.symm.trans (congrArg Fin.val hlast)
    exact (step_cons ha).trans (linkAccept_last (s := { s with agenda := later }) hr hs h hval)

/-- A transport error while a WRITE is in flight (44_link_write.md R106). -/
theorem linkError_of_tx {s : State} (hr : s.resetInput = false) (hrx : s.rx.state = .idle) (hs : s.tx.state = .send) :
    linkError s = finishTx (.err .transportError) s := by
  rcases linkError_cases s with ⟨hnone, _⟩ | ⟨_, hread, _⟩ | ⟨_, _, _, e⟩
  · simp [hr, hs] at hnone
  · exact absurd hrx hread
  · exact e

/-- Settles O44: the error ends the WRITE in flight, and no RX_READ is. -/
theorem txLinkError : Obligations.TxLinkError := fun s later hr hrx hs ha =>
  (step_cons ha).trans (congrArg _ (linkError_of_tx (s := { s with agenda := later }) hr hrx hs))

/-! ### The run of a whole WRITE -/

theorem runSteps_succ_of_step {s t : State} (e : step s = .next t) (n : Nat) : runSteps (n + 1) s = runSteps n t := by
  simp only [runSteps, e]

theorem step_accept (later : List Event) (s : State) :
    step { s with agenda := .accept :: later } = linkAccept { s with agenda := later } := rfl

/-- The state in which the WRITE in flight has sent the bytes `u`, `TX.idx` standing at `k` (44_link_write.md R105). -/
def sentOut (u : Bytes) (k : Fin 20) (s : State) : State :=
  { s with sent := s.sent ++ u, tx := { s.tx with idx := k } }

/-- Acceptances of all bytes `u` of `TX.buf` from `TX.idx` up to `TX.len` send them in order and end the WRITE. By induction on
the bytes still to send: only the last of them ends it. -/
theorem runSteps_accepts {u : Bytes} (later : List Event) {s : State} (hr : s.resetInput = false) (hs : s.tx.state = .send)
    (hne : u ≠ []) (hlen : s.tx.idx.val + u.length = s.tx.len.val) (hbuf : u <+: s.tx.buf.toList.drop s.tx.idx.val) :
    runSteps u.length { s with agenda := List.replicate u.length .accept ++ later } =
      .next (finishTx (.ok (.count s.tx.len.val)) (sentOut u s.tx.len { s with agenda := later })) := by
  induction u generalizing s with
  | nil => exact absurd rfl hne
  | cons b u ih =>
    have hnext : s.tx.idx.val + 1 + u.length = s.tx.len.val := by rw [← hlen, List.length_cons]; omega
    have hlt : s.tx.idx.val < 19 := by have := s.tx.len.isLt; omega
    have hsucc := fin20_succ hlt
    rw [List.drop_eq_getElem_cons (by simpa using hlt), List.cons_prefix_cons] at hbuf
    obtain ⟨hfirst, hrest⟩ := hbuf
    have hb : s.tx.buf[s.tx.idx.val] = b := hfirst.symm
    rw [List.length_cons]
    cases u with
    | nil =>
      have hlast := linkAccept_last (s := { s with agenda := later }) hr hs hlt hnext
      have hend : s.tx.idx + 1 = s.tx.len := Fin.ext (hsucc.trans hnext)
      simp only [hb, hend] at hlast
      exact runSteps_succ_of_step ((step_accept later s).trans hlast) 0
    | cons c u =>
      have hmore := linkAccept_more (s := { s with agenda := List.replicate (c :: u).length .accept ++ later }) hr hs hlt
        (by rw [List.length_cons] at hnext; dsimp only; omega)
      simp only [hb] at hmore
      rw [← hsucc] at hnext hrest
      have hrun := ih (s := sentOut [b] (s.tx.idx + 1) s) hr hs nofun hnext hrest
      refine ((runSteps_succ_of_step ((step_accept _ s).trans hmore) _).trans hrun).trans ?_
      simp only [sentOut, List.append_assoc, List.singleton_append]

/-- Settles O43: the issue puts the frame at the front of `TX.buf` with `TX.idx` at 0, and the acceptances send it. -/
theorem writeSendsFrame : Obligations.WriteSendsFrame := by
  intro s m later hready hvalid ha
  have hlen := serialize_length hvalid
  have hissue : step s = .next (writing m { s with agenda := List.replicate m.shape.messageLength .accept ++ later }) :=
    (stepRunsDecoded.1 s _ _ _ ha (decodeRequest_encode hvalid rfl)).trans (exec_write_ready hready hvalid)
  have hfront : serialize m <+: (writing m s).tx.buf.toList := ⟨_, (writing_buf_toList hvalid s).symm⟩
  have hrun := runSteps_accepts (s := writing m s) later hready.1 rfl (serialize_ne_nil m)
    ((Nat.zero_add _).trans (hlen.trans (txLen_val hvalid).symm)) hfront
  have hcount : (writing m s).tx.len.val = m.shape.messageLength := txLen_val hvalid
  rw [hlen, hcount] at hrun
  rw [Nat.add_comm 1, runSteps_succ_of_step hissue]
  exact ⟨_, hrun, rfl, rfl⟩

/-! ### The bytes held and the bytes sent -/

/-- The bytes a move brings to the Link. -/
def Event.arriving : Event → Bytes
  | .arrive b => [b]
  | .frame bs => bs
  | _ => []

/-- A frame move is the burst of its own bytes, since a row is written with the bytes it was decoded from. -/
theorem stepEvent_frame_eq_linkBurst (bs : Bytes) (s : State) : stepEvent (.frame bs) s = linkBurst bs s := by
  cases hd : decodeFrame bs with
  | ok i => rw [stepEvent_frame hd, exec_wire (decodeFrame_isWire hd), (decodeFrame_ok hd).1]
  | error why => simp only [stepEvent, hd]

/-- A request writes neither the bytes held nor the bytes sent. -/
theorem stepEvent_request_link {bs : Bytes} {s t : State} (e : stepEvent (.request bs) s = .next t) :
    t.held = s.held ∧ t.sent = s.sent := by
  obtain ⟨i, hd, e⟩ := stepEvent_request_next e
  obtain ⟨_, _, hheld, hsent, _⟩ := exec_host_environment (decodeRequest_ok hd).2 e
  exact ⟨hheld, hsent⟩

theorem linkAccept_held {s t : State} (e : linkAccept s = .next t) : t.held = s.held := by
  rcases linkAccept_cases s with ⟨_, e'⟩ | ⟨_, _, _, _, e'⟩ | ⟨_, _, _, _, e'⟩ | ⟨_, _, _, e'⟩ <;> rw [e'] at e <;> cases e
  · rfl
  · rfl
  · rfl

theorem linkError_link (s : State) : (linkError s).held = s.held ∧ (linkError s).sent = s.sent := by
  rcases linkError_cases s with ⟨_, e⟩ | ⟨_, _, e⟩ | ⟨_, _, _, e⟩ <;> rw [e] <;> exact ⟨rfl, rfl⟩

theorem releaseReset_link (s : State) : (releaseReset s).held = s.held ∧ (releaseReset s).sent = s.sent := by
  rcases releaseReset_cases s with ⟨_, e⟩ | ⟨_, e⟩ <;> rw [e] <;> exact ⟨rfl, rfl⟩

/-- A byte in transfer to the block is consumed at the assertion of reset only while an RX_READ is in flight
(70_reset_and_hazards.md R125). -/
theorem assertReset_held {s : State} (hidle : s.rx.state = .idle) (moved : Bool) : (assertReset moved s).held = s.held := by
  rcases assertReset_cases moved s with ⟨_, e⟩ | ⟨_, _, e⟩ | ⟨_, _, e⟩ <;> rw [e]
  · rfl
  · simp [byteInTransfer, hidle]

/-- While no RX_READ is in flight a move takes no byte from the Link: what it brings joins the bytes held
(44_link_write.md R103). -/
theorem stepEvent_held_of_rx_idle {ev : Event} {s t : State} (hidle : s.rx.state = .idle) (e : stepEvent ev s = .next t) :
    t.held = s.held ++ ev.arriving := by
  cases ev with
  | arrive b => cases e; rfl
  | frame bs => rw [stepEvent_frame_eq_linkBurst, linkBurst_waits (.inl hidle)] at e; cases e; rfl
  | request bs => exact (stepEvent_request_link e).1.trans (List.append_nil _).symm
  | readCfg | readStatus => cases e; exact (List.append_nil _).symm
  | assertReset moved => cases e; exact (assertReset_held hidle moved).trans (List.append_nil _).symm
  | releaseReset => cases e; exact (releaseReset_link s).1.trans (List.append_nil _).symm
  | offer =>
    have hwait := (linkOffers_one_of_next e).symm.trans (linkOffers_waits (.inl hidle) 1)
    cases hwait
    exact (List.append_nil _).symm
  | accept => exact (linkAccept_held e).trans (List.append_nil _).symm
  | linkError => cases e; exact (linkError_link s).1.trans (List.append_nil _).symm

/-- From `s` to `t` the bytes sent were kept, some joining them only while a WRITE was in flight (20_memory.md R43). -/
def SendsOnlyInSend (s t : State) : Prop :=
  s.sent <+: t.sent ∧ (s.tx.state = .idle → t.sent = s.sent)

namespace SendsOnlyInSend

variable {s t : State}

theorem of_eq (h : t.sent = s.sent) : SendsOnlyInSend s t := ⟨h ▸ List.prefix_refl _, fun _ => h⟩

theorem of_send (hs : s.tx.state = .send) {u : Bytes} (h : t.sent = s.sent ++ u) : SendsOnlyInSend s t :=
  ⟨⟨u, h.symm⟩, fun hidle => nomatch hs.symm.trans hidle⟩

theorem of_linkAccept (e : linkAccept s = .next t) : SendsOnlyInSend s t := by
  rcases linkAccept_cases s with ⟨_, e'⟩ | ⟨_, hs, _, _, e'⟩ | ⟨_, hs, _, _, e'⟩ | ⟨_, _, _, e'⟩ <;> rw [e'] at e <;> cases e
  · exact of_eq rfl
  · exact of_send hs rfl
  · exact of_send hs rfl

/-- The byte in transfer from the block is sent only if a WRITE offers it (70_reset_and_hazards.md R125). -/
theorem of_byteInTransfer (s : State) : SendsOnlyInSend s (byteInTransfer s) := by
  cases hs : s.tx.state with
  | idle => exact of_eq (by simp [byteInTransfer, hs])
  | send => exact of_send hs (if_pos hs)

theorem of_assertReset (moved : Bool) (s : State) : SendsOnlyInSend s (assertReset moved s) := by
  rcases assertReset_cases moved s with ⟨_, e⟩ | ⟨_, _, e⟩ | ⟨_, _, e⟩ <;> rw [e]
  · exact of_eq rfl
  · exact of_eq rfl
  · exact of_byteInTransfer s

theorem of_stepEvent {ev : Event} (e : stepEvent ev s = .next t) : SendsOnlyInSend s t := by
  cases ev with
  | request bs => exact of_eq (stepEvent_request_link e).2
  | frame bs =>
    rw [stepEvent_frame_eq_linkBurst] at e
    obtain ⟨_, _, _, _, hsent, _⟩ := linkOffers_frame e
    exact of_eq hsent
  | offer =>
    obtain ⟨_, _, _, _, hsent, _⟩ := linkOffers_frame (linkOffers_one_of_next e)
    exact of_eq hsent
  | readCfg | readStatus | arrive b => cases e; exact of_eq rfl
  | assertReset moved => cases e; exact of_assertReset moved s
  | releaseReset => cases e; exact of_eq (releaseReset_link s).2
  | accept => exact of_linkAccept e
  | linkError => cases e; exact of_eq (linkError_link s).2

end SendsOnlyInSend

theorem step_keeps_results {s t : State} (e : step s = .next t) : s.results <+: t.results := by
  rcases statusRecordsLastResult s t e with ⟨hresults, _⟩ | ⟨r, hresults, _⟩ <;> rw [hresults]
  exact List.prefix_append _ _

/-- Settles O52: the head of the agenda is taken off, and its move keeps the rule of the bytes held and of the bytes sent. -/
theorem linkBytesMoveOnlyInFlight : Obligations.LinkBytesMoveOnlyInFlight := by
  intro s t e
  have hresults := step_keeps_results e
  cases ha : s.agenda with
  | nil =>
    rw [step_nil ha] at e
    cases e
    exact ⟨fun _ => ⟨[], (List.append_nil _).symm, .inr (.inr rfl)⟩, fun _ => rfl, List.prefix_refl _, hresults⟩
  | cons ev rest =>
    rw [step_cons ha] at e
    obtain ⟨hsent, hquiet⟩ := SendsOnlyInSend.of_stepEvent e
    refine ⟨fun hidle => ⟨ev.arriving, stepEvent_held_of_rx_idle (s := { s with agenda := rest }) hidle e, ?_⟩, hquiet, hsent,
      hresults⟩
    cases ev with
    | arrive b => exact .inl ⟨b, rest, rfl, rfl⟩
    | frame bs => exact .inr (.inl ⟨bs, rest, rfl, rfl⟩)
    | request | readCfg | readStatus | assertReset | releaseReset | offer | accept | linkError => exact .inr (.inr rfl)

end Sys2Proof.Machine

/-! PROOFS. The statement of 60_exceptions.md: what an error leaves unchanged (R114). -/

namespace Sys2Proof.Machine

/-- A host request that answers a next state has ended on the state it was issued in, has ended with an Ok Result, or has returned
no Result yet: what sets an element never raises, and what raises sets none. -/
theorem exec_host_results {i : Instr} (h : i.isWire = false) {s t : State} (e : exec i s = .next t) :
    (∃ r, t = finish r s) ∨ (∃ v, t.results = s.results ++ [.ok v]) ∨ t.results = s.results := by
  cases i
  case msgNew | checksum | frameParse | swBuild | wpBuild => exact .inl ⟨_, eq_of_take_next e⟩
  case serialize | measDecode => exact .inl ⟨_, eq_of_take_needMessage_next e⟩
  case swNew | swSleep | swWake | wpNew | rxConfig => cases eq_of_take_next e; exact .inr (.inl ⟨_, rfl⟩)
  case wpSet n =>
    have ht := eq_of_take_next e
    split at ht
    · exact .inl ⟨_, ht⟩
    · cases ht; exact .inr (.inl ⟨_, rfl⟩)
  case rxRead => cases eq_of_take_next e; exact .inr (.inr rfl)
  case write => cases eq_of_take_needMessage_next e; exact .inr (.inr rfl)
  all_goals cases h

/-- A host request whose Result is an error has ended on the state it was issued in. -/
theorem exec_host_error {i : Instr} (h : i.isWire = false) {s t : State} (e : exec i s = .next t) {x : ReqError}
    (hx : t.results = s.results ++ [.err x]) : t = finish (.err x) s := by
  rcases exec_host_results h e with ⟨r, rfl⟩ | ⟨v, hv⟩ | hnone
  · obtain rfl : r = .err x := by simpa using hx
    rfl
  · simp [hv] at hx
  · simp [hnone] at hx

/-- A transport error that returns a Result ends the RX_READ in flight, or the WRITE in flight while no RX_READ is. -/
theorem linkError_of_results_ne {s : State} (h : (linkError s).results ≠ s.results) :
    (s.rx.state ≠ .idle ∧ linkError s = finishRx (.err .transportError) s) ∨
    (s.rx.state = .idle ∧ s.tx.state = .send ∧ linkError s = finishTx (.err .transportError) s) := by
  rcases linkError_cases s with ⟨_, e⟩ | ⟨_, hactive, e⟩ | ⟨_, hidle, hsend, e⟩
  · exact absurd (congrArg State.results e) h
  · exact .inl ⟨hactive, e⟩
  · exact .inr ⟨hidle, hsend, e⟩

/-- Settles O28: an error ends a host request by `finish` on the state it was issued in, and a request in flight by `finishRx` or
`finishTx` on the state with the move taken off the agenda. -/
theorem errorWritesOnlyStatus : Obligations.ErrorWritesOnlyStatus := by
  refine ⟨fun i s t x hhost e hx => exec_host_error hhost e hx, fun s t later ha e hne => ?_⟩
  rw [step_cons ha] at e
  cases e
  rcases linkError_of_results_ne (s := { s with agenda := later }) hne with ⟨hactive, e⟩ | ⟨hidle, hsend, e⟩
  · exact ⟨fun _ => e, fun hidle => absurd hidle hactive⟩
  · exact ⟨fun hactive => absurd hidle hactive, fun _ => ⟨hsend, e⟩⟩

end Sys2Proof.Machine

/-! PROOFS. The statements of 70_reset_and_hazards.md: what a builder's payload outlives, a read whose shape does not match the
frames, reset and what it leaves, and when a run is observed. -/

namespace Sys2Proof.Machine

/-! ### Builder persistence -/

theorem Builder.setMode_flag (b : Builder) (flag value : Byte) : (b.setMode flag value).buf[1] = flag := by
  simp

/-- What any instruction can do to the sleep/wake builder: only SW_NEW, SW_SLEEP and SW_WAKE write it
(41_command_builders.md R81 to R83). -/
theorem exec_swb {i : Instr} {s t : State} (e : exec i s = .next t) :
    t.swb = s.swb ∨ (∃ sh, i = .swNew sh) ∨ ∃ v, t.swb = s.swb.setMode 1 v := by
  cases hi : i.isWire with
  | true =>
    obtain ⟨hswb, _⟩ := SameSettings.of_linkBurst ((exec_wire hi s).symm.trans e)
    exact .inl hswb
  | false =>
    rcases exec_host_builders hi e with
      ⟨hswb, _⟩ | ⟨_, ⟨sh, hnew, _⟩ | ⟨_, hset⟩ | ⟨_, hset⟩⟩ | ⟨hswb, _⟩
    · exact .inl hswb
    · exact .inr (.inl ⟨sh, hnew⟩)
    · exact .inr (.inr ⟨_, hset⟩)
    · exact .inr (.inr ⟨_, hset⟩)
    · exact .inl hswb

/-- What any instruction can do to the working-period builder: only WP_NEW and WP_SET write it (41_command_builders.md R85,
R86). -/
theorem exec_wpb {i : Instr} {s t : State} (e : exec i s = .next t) :
    t.wpb = s.wpb ∨ (∃ sh, i = .wpNew sh) ∨ ∃ v, t.wpb = s.wpb.setMode 1 v := by
  cases hi : i.isWire with
  | true =>
    obtain ⟨_, hwpb, _⟩ := SameSettings.of_linkBurst ((exec_wire hi s).symm.trans e)
    exact .inl hwpb
  | false =>
    rcases exec_host_builders hi e with ⟨_, hwpb⟩ | ⟨hwpb, _⟩ | ⟨_, ⟨sh, hnew, _⟩ | ⟨n, _, hset⟩⟩
    · exact .inl hwpb
    · exact .inl hwpb
    · exact .inr (.inl ⟨sh, hnew⟩)
    · exact .inr (.inr ⟨_, hset⟩)

/-- A WP_SET that ends in an error has written no builder (41_command_builders.md R86). -/
theorem exec_wpSet_failed {n : Int} {s t : State} (e : exec (.wpSet n) s = .next t) (herr : t.err ≠ 0) : t.wpb = s.wpb := by
  have ht := eq_of_take_next e
  split at ht
  · cases ht; rfl
  · cases ht; exact absurd rfl herr

/-- A builder with its mode flag set keeps it when it is kept or set again, so a lost flag tells of the third way. -/
theorem Builder.new_of_flag_lost {b c : Builder} {new : Prop} (h : c = b ∨ new ∨ ∃ v, c = b.setMode 1 v)
    (hset : b.buf[1] = 0x01) (hlost : c.buf[1] ≠ 0x01) : new := by
  rcases h with rfl | hnew | ⟨v, rfl⟩
  · exact absurd hset hlost
  · exact hnew
  · exact absurd (Builder.setMode_flag b 1 v) hlost

/-- Settles O22: a BUILD ends by `finish` on the state it was issued in; a builder written by anything but its NEW has its flag
set. -/
theorem buildersPersist : Obligations.BuildersPersist := by
  refine fun s t i e => ⟨?_, Builder.new_of_flag_lost (exec_swb e), Builder.new_of_flag_lost (exec_wpb e), ?_⟩
  · rintro d (rfl | rfl) <;> (cases eq_of_take_next e; exact ⟨rfl, rfl⟩)
  · rintro n rfl herr
    exact exec_wpSet_failed e herr

/-! ### Shape mismatch -/

/-- Once a run of offers has ended the RX_READ, further offers change nothing (44_link_write.md R103). -/
theorem linkOffers_add_of_idle {m : Nat} {s t : State} (h : linkOffers m s = .next t) (hidle : t.rx.state = .idle) (n : Nat) :
    linkOffers (m + n) s = .next t :=
  (linkOffers_add h).trans (linkOffers_idle hidle n)

theorem encode_eq_head_cons {i : Instr} (h : i.isWire = true) : ∃ r, encode i = Config.head :: r :=
  List.head?_eq_some_iff.1 ((encode_head_iff i).2 h)

section mismatch

variable {s : State} (hr : s.resetInput = false) (hs : s.rx.state = .hunt) (hh : s.held = [])

include hr hs hh

/-- The burst of bytes that begin with the head and are fewer than a frame leaves them collected (42_frame_reader.md R94). -/
theorem linkBurst_collects {r : Bytes} (hc : 1 + r.length < s.rxShape.messageLength) :
    linkBurst (Config.head :: r) s = .next (collecting s (Config.head :: r)) := by
  have hempty : { s with held := [] } = s := by rw [← hh]
  have hrun := linkOffers_head_collect (s := { s with held := Config.head :: r }) (rest := []) hr hs (List.append_nil _).symm hc
  rw [hempty] at hrun
  rw [linkBurst, hh, List.length_nil, Nat.zero_add, List.nil_append, List.length_cons, Nat.add_comm r.length]
  exact hrun

/-- The burst of a whole frame and more ends the RX_READ with what the frame parses to, and what is behind it waits in the Link
(42_frame_reader.md R95, 44_link_write.md R103). -/
theorem linkBurst_front_completes {r rest : Bytes} {m : Message} (hl : (Config.head :: r).length = s.rxShape.messageLength)
    (hm : parse s.rxShape (Config.head :: r) = .ok m) :
    linkBurst (Config.head :: r ++ rest) s =
      .next (finishRx (.ok (.message m)) (collecting { s with held := rest } (Config.head :: r))) := by
  have hread := linkOffers_frame_completes (s := { s with held := Config.head :: r ++ rest }) hr hs rfl hl hm
  rw [linkBurst, hh, List.length_nil, Nat.zero_add, List.nil_append, List.length_append, hl]
  exact linkOffers_add_of_idle hread rfl rest.length

/-- When a frame's front is collected, the burst of the bytes it lacks and more ends the RX_READ with what front and rest of the
frame parse to: the offers of both bursts are those of the whole frame, cut in two. -/
theorem linkBurst_collected_completes {r g rest : Bytes} {m : Message} (hc : 1 + r.length < s.rxShape.messageLength)
    (hl : (Config.head :: r ++ g).length = s.rxShape.messageLength) (hm : parse s.rxShape (Config.head :: r ++ g) = .ok m) :
    linkBurst (g ++ rest) (collecting s (Config.head :: r)) =
      .next (finishRx (.ok (.message m)) (collecting { s with held := rest } (Config.head :: r ++ g))) := by
  have hfront := linkOffers_head_collect (s := { s with held := Config.head :: r ++ (g ++ rest) }) hr hs rfl hc
  have hread := linkOffers_frame_completes (s := { s with held := Config.head :: r ++ (g ++ rest) }) (r := r ++ g) (rest := rest)
    hr hs (by simp) hl hm
  have hcut : s.rxShape.messageLength = 1 + r.length + g.length := by
    rw [← hl, List.length_append, List.length_cons, Nat.add_comm 1]
  dsimp only at hread
  rw [hcut, linkOffers_add hfront] at hread
  have hheld : (collecting s (Config.head :: r)).held = [] := hh
  rw [linkBurst, hheld, List.length_nil, Nat.zero_add, List.nil_append, List.length_append]
  exact linkOffers_add_of_idle hread rfl rest.length

end mismatch

/-- Settles O40: the first ten-byte frame is collected and lacks nine bytes, which the front of the second gives; of a
nineteen-byte frame the first ten bytes are a frame of the reader. What is behind waits in the Link. -/
theorem shapeMismatchMisreadsFrames : Obligations.ShapeMismatchMisreadsFrames := by
  constructor
  · intro i j s hwi hwj hli hlj hr hs hshape hh
    obtain ⟨r, hi⟩ := encode_eq_head_cons hwi
    have hlr : r.length + 1 = 10 := by rw [← hli, hi, List.length_cons]
    have hc : 1 + r.length < s.rxShape.messageLength := by rw [hshape, Nat.add_comm, hlr]; decide
    have hl : (Config.head :: r ++ (encode j).take 9).length = s.rxShape.messageLength := by
      rw [hshape, List.length_append, List.length_take, List.length_cons, hlr, hlj]; rfl
    obtain ⟨m, hm⟩ : ∃ m, parse s.rxShape (Config.head :: r ++ (encode j).take 9) = .ok m := ⟨_, parse_ok hl⟩
    have hsecond := linkBurst_collected_completes hr hs hh (rest := (encode j).drop 9) hc hl hm
    rw [List.take_append_drop] at hsecond
    rw [hshape] at hm
    rw [exec_wire hwi, hi, linkBurst_collects hr hs hh hc]
    exact ⟨_, _, m, rfl, rfl, rfl, (exec_wire hwj _).trans hsecond, hm, rfl, rfl, rfl, rfl, rfl⟩
  · intro i s hwi hli hr hs hshape hh
    obtain ⟨r, hi⟩ := encode_eq_head_cons hwi
    have hfront : (encode i).take 10 = Config.head :: r.take 9 := by rw [hi]; rfl
    have hl : (Config.head :: r.take 9).length = s.rxShape.messageLength := by
      rw [hshape, ← hfront, List.length_take, hli]; rfl
    obtain ⟨m, hm⟩ : ∃ m, parse s.rxShape (Config.head :: r.take 9) = .ok m := ⟨_, parse_ok hl⟩
    have hread := linkBurst_front_completes hr hs hh (rest := (encode i).drop 10) hl hm
    rw [← hfront, List.take_append_drop] at hread
    rw [hshape, ← hfront] at hm
    exact ⟨_, m, (exec_wire hwi s).trans hread, hm, rfl, rfl, rfl, rfl, rfl⟩

/-! ### Reset -/

theorem assertReset_of_released {s : State} (hr : s.resetInput = false) (moved : Bool) :
    assertReset moved s = { blockReset (if moved then byteInTransfer s else s) with resetInput := true } := by
  simp [assertReset, hr]

theorem releaseReset_of_asserted {s : State} (hr : s.resetInput = true) :
    releaseReset s = { blockReset s with resetInput := false } := by
  simp [releaseReset, hr]

/-- The byte a WRITE offers is the one at `TX.idx` (44_link_write.md R105). -/
theorem byteInTransfer_sent {s : State} (hs : s.tx.state = .send) (h : s.tx.idx.val < 19) :
    (byteInTransfer s).sent = s.sent ++ [s.tx.buf[s.tx.idx.val]] := by
  simp [byteInTransfer, hs, h]

/-- Settles O48: at its assertion reset sets every element on the state with the byte in transfer moved or not; at its release it
sets them again. -/
theorem resetSetsEveryElement : Obligations.ResetSetsEveryElement := by
  refine fun s later => ⟨fun moved hr ha => ?_, fun hr ha => ?_⟩
  · rw [step_cons ha, stepEvent, assertReset_of_released (s := { s with agenda := later }) hr]
    cases moved with
    | false => exact ⟨_, rfl, rfl, rfl, rfl, rfl, rfl, rfl, rfl, rfl, rfl, rfl, fun _ => ⟨rfl, rfl⟩, nofun⟩
    | true =>
      refine ⟨_, rfl, rfl, rfl, rfl, rfl, rfl, rfl, rfl, rfl, rfl, rfl, nofun, fun _ => ⟨?_, ?_, ?_, ?_⟩⟩
      · exact fun hidle => if_neg (not_not.2 hidle)
      · exact fun hactive => (if_pos hactive).trans List.drop_one.symm
      · exact fun hidle => if_neg (by simp [hidle])
      · exact fun hsend hlt => byteInTransfer_sent (s := { s with agenda := later }) hsend hlt
  · rw [step_cons ha, stepEvent, releaseReset_of_asserted (s := { s with agenda := later }) hr]
    exact ⟨_, rfl, rfl, rfl, rfl, rfl, rfl, rfl, rfl, rfl, rfl, rfl, rfl⟩

theorem take_inReset {s : State} (hr : s.resetInput = true) (effect : Out) : take s effect = .refused .inReset := if_pos hr

/-- While reset is asserted every host request is refused, a format-HM one before its operand is looked at
(70_reset_and_hazards.md R124). -/
theorem exec_host_inReset {i : Instr} (hhost : i.isWire = false) {s : State} (hr : s.resetInput = true) :
    exec i s = .refused .inReset := by
  cases i
  case msgNew | checksum | serialize | frameParse | rxConfig | rxRead | measDecode | write | swNew | swSleep | swWake | swBuild |
      wpNew | wpSet | wpBuild => exact take_inReset hr _
  all_goals cases hhost

/-- Settles O49: a request is refused before its effect is looked at, and each link event looks at reset first. -/
theorem nothingMovesInReset : Obligations.NothingMovesInReset := by
  refine fun s later hr => ⟨fun i hhost => exec_host_inReset hhost hr, ?_⟩
  rintro ev (rfl | rfl | rfl) ha <;> rw [step_cons ha]
  · exact if_pos hr
  · exact if_pos hr
  · exact congrArg Host.Outcome.next (if_pos hr)

/-! ### The end of a run -/

/-- A step ends the run when it returns a Result, leaves `BUSY` = 0 and no request is left (70_reset_and_hazards.md R137): a step
that returns something returns one Result. -/
theorem runEnds_iff {s t : State} (e : step s = .next t) :
    runEnds s t = true ↔ (∃ r, t.results = s.results ++ [r]) ∧ (∀ bs, Event.request bs ∉ t.agenda) ∧ t.busy = false := by
  have hlength : s.results.length < t.results.length ↔ ∃ r, t.results = s.results ++ [r] := by
    rcases statusRecordsLastResult s t e with ⟨hnone, _⟩ | ⟨r, hone, _⟩
    · simp [hnone]
    · simp [hone]
  simp only [runEnds, Bool.and_eq_true, decide_eq_true_eq, Bool.not_eq_true', hlength, requestsLeft_eq_false]
  tauto

/-- The step that ends the run from `s` is the one after `k` steps and leaves `u`: no step before it ends the run. -/
def EndsAfter (k : Nat) (s u : State) : Prop :=
  ∃ t, runSteps k s = .next t ∧ step t = .next u ∧ runEnds t u = true ∧
    ∀ j < k, ∀ v w, runSteps j s = .next v → step v = .next w → runEnds v w = false

namespace EndsAfter

theorem zero_iff {s u : State} : EndsAfter 0 s u ↔ step s = .next u ∧ runEnds s u = true := by
  constructor
  · rintro ⟨_, ⟨⟩, e, hends, _⟩
    exact ⟨e, hends⟩
  · rintro ⟨e, hends⟩
    exact ⟨s, rfl, e, hends, nofun⟩

theorem succ_iff {k : Nat} {s t u : State} (e : step s = .next t) :
    EndsAfter (k + 1) s u ↔ runEnds s t = false ∧ EndsAfter k t u := by
  have hshift (n : Nat) : runSteps (n + 1) s = runSteps n t := runSteps_succ_of_step e n
  constructor
  · rintro ⟨v, hrun, hstep, hends, hfirst⟩
    refine ⟨hfirst 0 k.succ_pos s t rfl e, v, hshift k ▸ hrun, hstep, hends, fun j hj v w hv => ?_⟩
    exact hfirst (j + 1) (Nat.succ_lt_succ hj) v w (hshift j ▸ hv)
  · rintro ⟨hgoes, v, hrun, hstep, hends, hfirst⟩
    refine ⟨v, hshift k ▸ hrun, hstep, hends, fun j hj v w hv hw => ?_⟩
    cases j with
    | zero => cases hv; cases e.symm.trans hw; exact hgoes
    | succ j => exact hfirst j (Nat.lt_of_succ_lt_succ hj) v w (hshift j ▸ hv) hw

/-- A run that ends has a first step. -/
theorem exists_step {k : Nat} {s u : State} (h : EndsAfter k s u) : ∃ t, step s = .next t := by
  cases k with
  | zero => exact ⟨u, (zero_iff.1 h).1⟩
  | succ k =>
    obtain ⟨t, hrun, _⟩ := h
    cases e : step s with
    | next t => exact ⟨t, rfl⟩
    | fault r => simp only [runSteps, e] at hrun; cases hrun
    | refused r => simp only [runSteps, e] at hrun; cases hrun

end EndsAfter

/-- By induction on the steps looked at: the first of them ends the run or the observation is that of the rest. -/
theorem observe_eq_some_iff {s : State} {n : Nat} {o : Observation} :
    s.observe n = some o ↔ ∃ k < n, ∃ u, EndsAfter k s u ∧ o = u.observation := by
  induction n generalizing s with
  | zero => exact ⟨nofun, nofun⟩
  | succ n ih =>
    constructor
    · intro h
      cases e : step s with
      | next t =>
        rw [observe_next e] at h
        split_ifs at h with hends
        · cases h
          exact ⟨0, n.succ_pos, t, EndsAfter.zero_iff.2 ⟨e, hends⟩, rfl⟩
        · obtain ⟨k, hk, u, hu, ho⟩ := ih.1 h
          exact ⟨k + 1, Nat.succ_lt_succ hk, u, (EndsAfter.succ_iff e).2 ⟨Bool.eq_false_of_not_eq_true hends, hu⟩, ho⟩
      | fault r => simp only [State.observe, e] at h; cases h
      | refused r => simp only [State.observe, e] at h; cases h
    · rintro ⟨k, hk, u, hu, rfl⟩
      obtain ⟨t, e⟩ := hu.exists_step
      rw [observe_next e]
      cases k with
      | zero =>
        obtain ⟨e', hends⟩ := EndsAfter.zero_iff.1 hu
        cases e.symm.trans e'
        exact if_pos hends
      | succ k =>
        obtain ⟨hgoes, hrest⟩ := (EndsAfter.succ_iff e).1 hu
        rw [if_neg (Bool.not_eq_true _ ▸ hgoes)]
        exact ih.2 ⟨k, Nat.lt_of_succ_lt_succ hk, u, hrest, rfl⟩

/-- The same of a step that does not end the run: its Result, if it returns one, leaves a request in flight or to come. -/
theorem runEnds_eq_false_iff {s t : State} (e : step s = .next t) :
    runEnds s t = false ↔ ∀ r, t.results = s.results ++ [r] → t.busy = true ∨ ∃ bs, Event.request bs ∈ t.agenda := by
  rw [← Bool.not_eq_true, runEnds_iff e]
  constructor
  · intro hgoes r hr
    by_contra hdone
    rw [not_or, Bool.not_eq_true, not_exists] at hdone
    exact hgoes ⟨⟨r, hr⟩, hdone.2, hdone.1⟩
  · rintro hmore ⟨⟨r, hr⟩, hno, hbusy⟩
    rcases hmore r hr with hb | ⟨bs, hbs⟩
    · cases hb.symm.trans hbusy
    · exact hno bs hbs

/-- No request is in flight and none is left to issue. -/
structure State.Done (s : State) : Prop where
  rx_idle : s.rx.state = .idle
  tx_idle : s.tx.state = .idle
  no_request : ∀ bs, Event.request bs ∉ s.agenda

namespace State.Done

variable {s t : State}

/-- The assertion of reset abandons what is in flight (70_reset_and_hazards.md R125). -/
theorem of_assertReset (hr : s.resetInput = false) (hno : ∀ bs, Event.request bs ∉ s.agenda) (moved : Bool) :
    (assertReset moved s).Done := by
  rw [assertReset_of_released hr]
  cases moved <;> exact ⟨rfl, rfl, hno⟩

theorem after_assertReset (h : s.Done) (moved : Bool) : (assertReset moved s).Done := by
  cases hr : s.resetInput with
  | false => exact of_assertReset hr h.no_request moved
  | true => simpa only [assertReset, hr, if_true] using h

theorem after_releaseReset (h : s.Done) : (releaseReset s).Done := by
  rcases releaseReset_cases s with ⟨_, e⟩ | ⟨_, e⟩ <;> rw [e]
  · exact h
  · exact ⟨rfl, rfl, h.no_request⟩

theorem linkAccept_eq (h : s.Done) : linkAccept s = .next s := by
  simp only [linkAccept, h.tx_idle, ite_self]

theorem linkError_eq (h : s.Done) : linkError s = s := by
  simp [linkError, h.rx_idle, h.tx_idle]

/-- A move that is no request returns no Result and starts nothing. -/
theorem after_stepEvent (h : s.Done) {ev : Event} (hev : ∀ bs, ev ≠ .request bs) (e : stepEvent ev s = .next t) :
    t.results = s.results ∧ t.Done := by
  obtain ⟨hrx, htx, hno⟩ := h
  cases ev with
  | request bs => exact absurd rfl (hev bs)
  | frame bs =>
    rw [stepEvent_frame_eq_linkBurst, linkBurst_waits (.inl hrx)] at e
    cases e
    exact ⟨rfl, hrx, htx, hno⟩
  | readCfg | readStatus | arrive b => cases e; exact ⟨rfl, hrx, htx, hno⟩
  | assertReset moved => cases e; exact ⟨(assertReset_status moved s).1, after_assertReset ⟨hrx, htx, hno⟩ moved⟩
  | releaseReset => cases e; exact ⟨(releaseReset_status s).1, after_releaseReset ⟨hrx, htx, hno⟩⟩
  | offer =>
    cases (linkOffers_one_of_next e).symm.trans (linkOffers_waits (.inl hrx) 1)
    exact ⟨rfl, hrx, htx, hno⟩
  | accept =>
    cases e.symm.trans (linkAccept_eq ⟨hrx, htx, hno⟩)
    exact ⟨rfl, hrx, htx, hno⟩
  | linkError =>
    cases e
    rw [linkError_eq ⟨hrx, htx, hno⟩]
    exact ⟨rfl, hrx, htx, hno⟩

theorem after_step (h : s.Done) (e : step s = .next t) : t.results = s.results ∧ t.Done := by
  cases ha : s.agenda with
  | nil => rw [step_nil ha] at e; cases e; exact ⟨rfl, h⟩
  | cons ev rest =>
    rw [step_cons ha] at e
    have hno := h.no_request
    simp only [ha, List.mem_cons, not_or] at hno
    have hrest : State.Done { s with agenda := rest } := ⟨h.rx_idle, h.tx_idle, fun bs => (hno bs).2⟩
    exact hrest.after_stepEvent (fun bs hev => (hno bs).1 hev.symm) e

end State.Done

theorem observe_of_no_result {s t : State} (e : step s = .next t) (h : t.results = s.results) (n : Nat) :
    s.observe (n + 1) = t.observe n := by
  rw [observe_next e, runEnds_of_results_eq h]
  rfl

/-- A run with no request in flight or to come is never observed (notes/assumptions/23.md). -/
theorem State.Done.observe_eq_none {s : State} (h : s.Done) (n : Nat) : s.observe n = none := by
  induction n generalizing s with
  | zero => rfl
  | succ n ih =>
    cases e : step s with
    | next t =>
      obtain ⟨hresults, hdone⟩ := h.after_step e
      rw [observe_of_no_result e hresults, ih hdone]
    | fault r => simp only [State.observe, e]
    | refused r => simp only [State.observe, e]

/-- Settles O57: the observation is that of the first step that ends the run; after a reset with no request to come nothing
can return a Result, nor can anything in a run with no request at all. -/
theorem runEndsAfterLastResult : Obligations.RunEndsAfterLastResult := by
  refine ⟨fun s n o => ?_, fun s moved later hr ha hno n => ?_, fun s hrx htx hno n => ?_⟩
  · rw [observe_eq_some_iff]
    constructor
    · rintro ⟨k, hk, u, ⟨t, hrun, hstep, hends, hfirst⟩, ho⟩
      obtain ⟨hresult, hno, hbusy⟩ := (runEnds_iff hstep).1 hends
      exact ⟨k, t, u, hk, hrun, hstep, hresult, hno, hbusy, ho, fun j v w r hj hv hw =>
        (runEnds_eq_false_iff hw).1 (hfirst j hj v w hv hw) r⟩
    · rintro ⟨k, t, u, hk, hrun, hstep, hresult, hno, hbusy, ho, hfirst⟩
      exact ⟨k, hk, u, ⟨t, hrun, hstep, (runEnds_iff hstep).2 ⟨hresult, hno, hbusy⟩, fun j hj v w hv hw =>
        (runEnds_eq_false_iff hw).2 fun r => hfirst j v w r hj hv hw⟩, ho⟩
  · cases n with
    | zero => rfl
    | succ n =>
      rw [observe_of_no_result (step_cons ha) (assertReset_status moved _).1]
      exact (State.Done.of_assertReset (s := { s with agenda := later }) hr hno moved).observe_eq_none n
  · exact State.Done.observe_eq_none ⟨hrx, htx, hno⟩ n

end Sys2Proof.Machine
